-- ==== Sys2Proof/Word.lean ====
section
/-! DEFINITION. The bit-vector types of the block: bytes, 32-bit host words, 12-bit window offsets (rules R9, R10, R44). -/

namespace Sys2Proof

/-- One byte of a buffer, a key or a packet (R10). -/
abbrev Byte := BitVec 8

/-- What one host transaction moves, and one command word (R44, R60). -/
abbrev Word := BitVec 32

/-- A byte offset inside the 4096-byte register window (R42, R44). -/
abbrev Offset := BitVec 12

end Sys2Proof
end

