-- ==== Sys2Proof/Syntax.lean ====
section
/-! DEFINITION. The commands of the block: one constructor per row of spec/opcode_table.json (R62, R63). -/

namespace Sys2Proof

/-- A command word, named (R62, R63). Only the words with a reserved bit set carry data: every other command is one
fixed word, and all its operands are registers and buffers (R61, R64). -/
inductive Instr where
  | hdrParse
  | hdrSerialize
  | chHash
  | pskDerive
  | ctrBuild
  | ctrApply
  | ctrApplyTo
  | sreset
  | illegal0
  | illegal8
  | illegal9
  | illegalA
  | illegalB
  | illegalC
  | illegalD
  | illegalE
  /-- A word with bits [31:4] not all 0: `rsvd` is [31:4] and `op` is [3:0]. -/
  | illegalRsvd (rsvd : BitVec 28) (op : BitVec 4)
  deriving DecidableEq, Repr

/-- The command words the spec calls illegal (R63, R101). -/
def Instr.isIllegal : Instr → Bool
  | .hdrParse | .hdrSerialize | .chHash | .pskDerive | .ctrBuild | .ctrApply | .ctrApplyTo | .sreset => false
  | .illegal0 | .illegal8 | .illegal9 | .illegalA | .illegalB | .illegalC | .illegalD | .illegalE => true
  | .illegalRsvd _ _ => true

end Sys2Proof
end

