-- ==== Sys2Proof/WellFormed.lean ====
section
/-! DEFINITION. Which terms of Instr stand for a command word. -/

namespace Sys2Proof

/-- The one check a term can fail: `illegalRsvd` is the row of the words with a reserved bit SET, so its field [31:4]
is not 0 (R63). -/
def Instr.wf : Instr → Bool
  | .hdrParse | .hdrSerialize | .chHash | .pskDerive | .ctrBuild | .ctrApply | .ctrApplyTo | .sreset => true
  | .illegal0 | .illegal8 | .illegal9 | .illegalA | .illegalB | .illegalC | .illegalD | .illegalE => true
  | .illegalRsvd rsvd _ => rsvd != 0#28

/-- `i` stands for a command word. -/
abbrev Instr.WellFormed (i : Instr) : Prop := i.wf = true

end Sys2Proof
end

