-- ==== Sys2Proof/Decode.lean ====
section
/-! DEFINITION. The command word: decoder and encoder (R60 to R63). -/

namespace Sys2Proof

/-- The field OP of a command word (R61). -/
def opField (w : Word) : BitVec 4 := w.extractLsb' 0 4

/-- The field RSVD of a command word (R61). -/
def rsvdField (w : Word) : BitVec 28 := w.extractLsb' 4 28

/-- The opcode map for words whose RSVD field is 0 (R62). `op` has 4 bits: the last line is the value 0xF alone. -/
def decodeOp (op : BitVec 4) : Instr :=
  match op.toNat with
  | 0x0 => .illegal0
  | 0x1 => .hdrParse
  | 0x2 => .hdrSerialize
  | 0x3 => .chHash
  | 0x4 => .pskDerive
  | 0x5 => .ctrBuild
  | 0x6 => .ctrApply
  | 0x7 => .ctrApplyTo
  | 0x8 => .illegal8
  | 0x9 => .illegal9
  | 0xA => .illegalA
  | 0xB => .illegalB
  | 0xC => .illegalC
  | 0xD => .illegalD
  | 0xE => .illegalE
  | _   => .sreset

/-- Every 32-bit word is some command: the assigned ones, or an illegal one (R62, R63). -/
def decodeWord (w : Word) : Instr :=
  if rsvdField w = 0#28 then decodeOp (opField w) else .illegalRsvd (rsvdField w) (opField w)

/-- The only reason a string of bytes holds no command at its start. -/
inductive DecodeError where
  /-- Fewer than the 4 bytes of one command word (R60: one format, one length). -/
  | truncatedWord
  deriving DecidableEq, Repr

/-- A host word from its four bytes, the byte at the lowest offset in bits [7:0] (R49). -/
def le32 (b0 b1 b2 b3 : Byte) : Word := b3 ++ b2 ++ b1 ++ b0

/-- The four bytes of a word, bits [7:0] first (R11, R49). -/
def le32bytes (v : Word) : List Byte :=
  [v.extractLsb' 0 8, v.extractLsb' 8 8, v.extractLsb' 16 8, v.extractLsb' 24 8]

/-- The command at the start of a string of bytes, and the bytes after it (log entry 15). -/
def decode : List Byte → Except DecodeError (Instr × List Byte)
  | b0 :: b1 :: b2 :: b3 :: rest => .ok (decodeWord (le32 b0 b1 b2 b3), rest)
  | _ => .error .truncatedWord

/-- The full word of a command (R62; R61 for the words with a reserved bit set). -/
def encode : Instr → Word
  | .hdrParse     => 0x00000001
  | .hdrSerialize => 0x00000002
  | .chHash       => 0x00000003
  | .pskDerive    => 0x00000004
  | .ctrBuild     => 0x00000005
  | .ctrApply     => 0x00000006
  | .ctrApplyTo   => 0x00000007
  | .sreset       => 0x0000000F
  | .illegal0     => 0x00000000
  | .illegal8     => 0x00000008
  | .illegal9     => 0x00000009
  | .illegalA     => 0x0000000A
  | .illegalB     => 0x0000000B
  | .illegalC     => 0x0000000C
  | .illegalD     => 0x0000000D
  | .illegalE     => 0x0000000E
  | .illegalRsvd rsvd op => rsvd ++ op

/-- The bytes of a command word as a buffer of the window would hold them (R49). -/
def encodeBytes (i : Instr) : List Byte := le32bytes (encode i)

/-- The one word the block answers at the host write itself, never at a completion (R39 case 1, R100). -/
def sresetWord : Word := 0x0000000F

/-- The command the decoder reads from an instruction numbered as the opcode table numbers it: `nbits` bits `w`, the
bits above them 0, laid out as bytes, the first at the lowest offset. -/
def decodeTableWord (nbits w : Nat) : Option Instr :=
  if nbits ≤ 32 then
    match decode (le32bytes (BitVec.ofNat 32 (w % 2 ^ nbits))) with
    | .ok (i, _) => some i
    | .error _   => none
  else none

end Sys2Proof
end

