-- ==== Sys2Proof/Config.lean ====
section
/-! DEFINITION. The build-time parameters (R8) and the fixed sizes and places of the buffers (R9, R19, R42).

`LATENCY`, the fourth parameter of R8, is a draw per command and not one value of the block: it has no field here.
Which step comes next, a host transaction or the completion of the command in flight, is read from the list
`Port.events` of `State` (Machine/State.lean; log entry 2). -/

namespace Sys2Proof

/-- The build parameter FLAG_LAYOUT (R8, R66). -/
inductive FlagLayout where
  | upstream
  | docProse
  deriving DecidableEq, Repr

/-- The build parameter CTR_POS: which four bytes of the counter block count (R8, R83). -/
inductive CtrPos where
  | low
  | high
  deriving DecidableEq, Repr

/-- The build-time parameters of one block (R8). They are configuration: no step changes them. `State` carries them
because a meaning has no other argument that could (log entry 1); so a statement about every state is a statement
about every build. -/
structure Build where
  flagLayout : FlagLayout
  ctrPos     : CtrPos
  defaultKey : Vector Byte 16
  deriving DecidableEq, Repr

namespace Build

/-- The values this spec's vectors use (R8): UPSTREAM, LOW and the 16 bytes of DEFAULT_KEY. -/
def specValues : Build where
  flagLayout := .upstream
  ctrPos     := .low
  defaultKey := #v[0xd4, 0xf1, 0xbb, 0x3a, 0x20, 0x29, 0x07, 0x59, 0xf0, 0xbc, 0xff, 0xab, 0xcf, 0x4e, 0x69, 0x01]

end Build

/-- Bytes of a wire header (R65). -/
def headerSize : Nat := 16
/-- PKT_SIZE (R9). -/
def pktSize : Nat := 256
/-- NAME_SIZE (R9). -/
def nameSize : Nat := 64
/-- PSK_SIZE (R9). -/
def pskSize : Nat := 64
/-- KEY_SIZE (R9). -/
def keySize : Nat := 32

/-- Window offset of PKT[0] (R19). -/
def pktBase : Nat := 0x100
/-- Window offset of NAME[0] (R19). -/
def nameBase : Nat := 0x200
/-- Window offset of PSK_TEXT[0] (R19). -/
def pskBase : Nat := 0x240
/-- Window offset of KEY[0] (R19). -/
def keyBase : Nat := 0x280
/-- The first offset past the buffers (R42). -/
def bufferEnd : Nat := 0x2A0

end Sys2Proof
end

