-- ==== Sys2Proof/Machine/State.lean ====
section
/-! DEFINITION. What the machine holds, as plain data (R17), why a step can stop, and the state after reset (R116).

Reserved register bits read 0 and ignore writes (R19), so a register is held as its named fields alone; its 32-bit view
is computed in Operands.lean and Flags.lean. `CMD` holds no value between writes (R20) and has no field. -/

namespace Sys2Proof.Machine

/-- STATUS.ERRCODE: the values the block can produce (R103). Codes 11 to 15 are never produced and have no
constructor. -/
inductive ErrCode where
  | none
  | truncatedInput
  | fieldOutOfRange
  | invalidEncoding
  | emptyPsk
  | unsupportedKeyLength
  | lengthMismatch
  | range
  | noContext
  | illegalCommand
  | keyContract
  deriving DecidableEq, Repr

/-- The bits of STATUS that are storage of their own (R21). Its other two bits are views: BUSY is 1 exactly while a
command is in flight (R37), CTX_VALID is `Context.valid` (R36; log entry 9). -/
structure Status where
  done    : Bool
  err     : Bool
  fault   : Bool
  rej     : Bool
  errcode : ErrCode
  deriving DecidableEq, Repr

/-- The fields of H_FLAGS (R25). -/
structure HFlags where
  hopLimit : BitVec 8
  hopStart : BitVec 8
  wantAck  : Bool
  viaMqtt  : Bool
  deriving DecidableEq, Repr

/-- The fields of H_ROUTE (R26). -/
structure HRoute where
  channelHash : BitVec 8
  nextHop     : BitVec 8
  relayNode   : BitVec 8
  deriving DecidableEq, Repr

/-- The result and operand registers (R19, R23 to R31), each as wide as its named fields. -/
structure Regs where
  result  : Word
  hDest   : Word
  hSender : Word
  hId     : Word
  hFlags  : HFlags
  hRoute  : HRoute
  pktLen  : BitVec 9
  nameLen : BitVec 8
  pskLen  : BitVec 8
  keyLen  : BitVec 6
  srcOff  : BitVec 9
  srcLen  : BitVec 9
  dstOff  : BitVec 9
  dstLen  : BitVec 9
  deriving DecidableEq, Repr

/-- The cipher context (R36), CTX_KLEN as wide as KEY_LEN (log entry 8). The host sees only `valid`. -/
structure Context where
  valid : Bool
  klen  : BitVec 6
  key   : Vector Byte 32
  n0    : Vector Byte 16
  deriving DecidableEq, Repr

/-- The four byte buffers PKT, NAME, PSK_TEXT and KEY (R32 to R35), each byte under its offset in the register window
(R19): the cells in rising order of offset, a byte that is 0x00 not listed. An unlisted byte reads 0x00, which is its
reset value (R116; log entry 12). -/
abbrev Memory := List Host.Cell

/-- The canonical form of the buffers: offsets strictly rising, no listed zero byte. -/
abbrev Memory.wf (m : Memory) : Prop :=
  m.Pairwise (fun c d => c.1 < d.1) ∧ ∀ c ∈ m, c.2 ≠ 0#8

/-- Every listed byte lies in the buffers' part of the window (R42). -/
abbrev Memory.inBuffers (m : Memory) : Prop :=
  ∀ c ∈ m, pktBase ≤ c.1 ∧ c.1 < bufferEnd

/-- A copy of what a command can read (R37, R40: "snapshot of all registers and buffers", the context with them, since
R64 lists it among the inputs; log entry 6). -/
structure Snapshot where
  status : Status
  regs   : Regs
  mem    : Memory
  ctx    : Context
  deriving DecidableEq, Repr

/-- The command in flight (R37): the word written to CMD and the snapshot taken at its start. -/
structure InFlight where
  word : Word
  snap : Snapshot
  deriving DecidableEq, Repr

/-- The two transactions of the host port (R44). -/
inductive HostTxn where
  | read (a : Offset)
  | write (a : Offset) (v : Word)
  deriving DecidableEq, Repr

/-- What can come next at the block: a host transaction, the completion of the command in flight (R16), or an edge of
the hard reset input (R116, R118). -/
inductive Event where
  | host (t : HostTxn)
  | complete
  | assertReset
  | releaseReset
  deriving DecidableEq, Repr

/-- The outside of the block, the model's own (log entries 2, 3, 4): what comes next, oldest first; the level of the
hard reset input; and the values host reads have returned, newest first. No command reads or writes it. -/
structure Port where
  events    : List Event
  resetIn   : Bool
  responses : List Word
  deriving DecidableEq, Repr

/-- The machine: the block's state (R17), the build it belongs to (R8) and the outside (log entries 1 and 2). -/
structure State where
  status   : Status
  regs     : Regs
  mem      : Memory
  ctx      : Context
  inflight : Option InFlight
  build    : Build
  port     : Port
  deriving DecidableEq, Repr

/-- Why the machine would stop with a fault: never. The spec's one fault, KEY_CONTRACT, is a state the block goes on
from (R108: STATUS.FAULT), hence a next state (log entry 16). Nothing raises a value of this type (safe: there is none). -/
inductive Fault where
  deriving DecidableEq, Repr

/-- Why the model gives a step no meaning. -/
inductive Refusal where
  /-- Raised by an arm of `exec` whose command has no meaning yet; no arm does. Safe: the run stops. -/
  | notModelled (mnemonic : String)
  /-- Raised by a host transaction while the hard reset input is asserted: R118 gives it no meaning and says a model
  refuses it. Safe: the run stops. -/
  | hostTransactionDuringReset
  deriving DecidableEq, Repr

/-- Registers, buffers and context after either reset (R19, R21, R116). -/
def Snapshot.reset : Snapshot where
  status := { done := false, err := false, fault := false, rej := false, errcode := .none }
  regs :=
    { result := 0, hDest := 0, hSender := 0, hId := 0
      hFlags := { hopLimit := 0, hopStart := 0, wantAck := false, viaMqtt := false }
      hRoute := { channelHash := 0, nextHop := 0, relayNode := 0 }
      pktLen := 0, nameLen := 0, pskLen := 0, keyLen := 0
      srcOff := 0, srcLen := 0, dstOff := 0, dstLen := 0 }
  mem := []
  ctx := { valid := false, klen := 0, key := Vector.replicate 32 0, n0 := Vector.replicate 16 0 }

/-- The machine right after reset (R116), built with this spec's parameter values (R8), nothing waiting outside. -/
def State.reset : State where
  status   := Snapshot.reset.status
  regs     := Snapshot.reset.regs
  mem      := Snapshot.reset.mem
  ctx      := Snapshot.reset.ctx
  inflight := none
  build    := Build.specValues
  port     := { events := [], resetIn := false, responses := [] }

end Sys2Proof.Machine
end

