-- ==== Sys2Proof/Machine/Ops.lean ====
section
/-! DEFINITION. The named operations: bytes of the buffers; the start, the three endings and the rejection of a command
(R40, R41, R108); the reset (R116); the host's end of the port. -/

namespace Sys2Proof.Machine

/-- The byte at window offset `a`; 0x00 where nothing is listed (R116). -/
def readByte : Memory → Nat → Byte
  | [], _ => 0
  | (k, v) :: m, a => if k = a then v else readByte m a

/-- Set the byte at window offset `a`, keeping the canonical form (a byte set to 0x00 is not listed). -/
def writeByte : Memory → Nat → Byte → Memory
  | [], a, v => if v = 0 then [] else [(a, v)]
  | (k, w) :: m, a, v =>
    if a < k then (if v = 0 then (k, w) :: m else (a, v) :: (k, w) :: m)
    else if a = k then (if v = 0 then m else (a, v) :: m)
    else (k, w) :: writeByte m a v

/-- The byte string of length `n` at offset `a`. -/
def readBytes (m : Memory) (a n : Nat) : List Byte :=
  (List.range n).map (fun i => readByte m (a + i))

/-- Write a byte string at offset `a`. -/
def writeBytes : Memory → Nat → List Byte → Memory
  | m, _, [] => m
  | m, a, b :: bs => writeBytes (writeByte m a b) (a + 1) bs

/-- The byte string of `n` bytes 0x00 (R11). -/
def zeros (n : Nat) : List Byte := List.replicate n 0

/-- Byte-wise exclusive or, as long as the shorter argument. -/
def xorBytes (xs ys : List Byte) : List Byte := List.zipWith (· ^^^ ·) xs ys

/-- A byte string as a fixed number of bytes: cut, or filled with 0x00 on the right. -/
def bytesToVector (n : Nat) (l : List Byte) : Vector Byte n := Vector.ofFn (fun i => l.getD i.val 0)

namespace State

/-- STATUS.BUSY (R21, R37). -/
def busy (s : State) : Bool := s.inflight.isSome

/-- A copy of every register and buffer, and of the context, as they stand (R40). -/
def snapshot (s : State) : Snapshot := { status := s.status, regs := s.regs, mem := s.mem, ctx := s.ctx }

/-- What the command in flight reads (R13, R40); with none in flight, what a command started now would read
(log entry 7). -/
def inputs (s : State) : Snapshot :=
  match s.inflight with
  | some f => f.snap
  | none   => s.snapshot

/-- The start of a command (R40). -/
def start (s : State) (w : Word) : State :=
  { s with
    inflight := some { word := w, snap := s.snapshot }
    status := { s.status with done := false, err := false, errcode := .none } }

/-- A rejected host write changes nothing except REJ (R41). -/
def reject (s : State) : State := { s with status := { s.status with rej := true } }

/-- Completion with outputs, once they are written: RESULT, DONE, and the command is over (R23, R40). -/
def succeed (s : State) (result : Word) : State :=
  { s with
    regs := { s.regs with result := result }
    status := { s.status with done := true }
    inflight := none }

/-- Completion with error `e`: the code is all that is written (R40, R104, R105). -/
def failWith (s : State) (e : ErrCode) : State :=
  { s with
    status := { s.status with err := true, errcode := e }
    inflight := none }

/-- Completion with fault `e`: an error that also enters the fault state and drops the context (R40, R108). -/
def faultWith (s : State) (e : ErrCode) : State :=
  { s with
    status := { s.status with err := true, errcode := e, fault := true }
    ctx := { s.ctx with valid := false }
    inflight := none }

/-- The effect of either reset on the block (R116): everything at its reset value, the command in flight abandoned; the
build and the outside stay (log entry 11). -/
def resetBlock (s : State) : State :=
  { State.reset with build := s.build, port := s.port }

/-- Write a byte string into the buffers. -/
def storeBytes (s : State) (a : Nat) (bs : List Byte) : State := { s with mem := writeBytes s.mem a bs }

/-- Write the five header registers (R24 to R26). -/
def setHeader (s : State) (dest sender id : Word) (flags : HFlags) (route : HRoute) : State :=
  { s with
    regs := { s.regs with hDest := dest, hSender := sender, hId := id, hFlags := flags, hRoute := route } }

/-- Write KEY_LEN (R30). -/
def setKeyLen (s : State) (n : BitVec 6) : State := { s with regs := { s.regs with keyLen := n } }

/-- Load a cipher context (R36). -/
def loadContext (s : State) (klen : BitVec 6) (key n0 : List Byte) : State :=
  { s with ctx := { valid := true, klen := klen, key := bytesToVector 32 key, n0 := bytesToVector 16 n0 } }

/-- Discard the cipher context: only CTX_VALID is cleared (R36; log entry 13). -/
def dropContext (s : State) : State := { s with ctx := { s.ctx with valid := false } }

/-- Take the next event off the outside's list. -/
def withEvents (s : State) (es : List Event) : State := { s with port := { s.port with events := es } }

/-- Set the level of the hard reset input. -/
def setResetIn (s : State) (level : Bool) : State := { s with port := { s.port with resetIn := level } }

/-- Hand the value of a read back to the host. -/
def respond (s : State) (v : Word) : State :=
  { s with port := { s.port with responses := v :: s.port.responses } }

end State

end Sys2Proof.Machine
end

