-- ==== Sys2Proof/Machine/Flags.lean ====
section
/-! DEFINITION. Flag computations: the STATUS word and its write-1-to-clear bits (R21), the error codes (R103), the
CONFIG word (R22), and the flags byte of the wire header (R66, R70, R71). -/

namespace Sys2Proof.Machine

/-- One flag as bit `i` of a word. -/
def flagBit (b : Bool) (i : Nat) : Word := if b then 1#32 <<< i else 0#32

/-- The number of an error code (R103). -/
def errNumber : ErrCode → Word
  | .none                 => 0
  | .truncatedInput       => 1
  | .fieldOutOfRange      => 2
  | .invalidEncoding      => 3
  | .emptyPsk             => 4
  | .unsupportedKeyLength => 5
  | .lengthMismatch       => 6
  | .range                => 7
  | .noContext            => 8
  | .illegalCommand       => 9
  | .keyContract          => 10

/-- What a read of STATUS returns (R21). -/
def statusWord (s : State) : Word :=
  flagBit s.busy 0 ||| flagBit s.status.done 1 ||| flagBit s.status.err 2 ||| flagBit s.status.fault 3 |||
    flagBit s.ctx.valid 4 ||| flagBit s.status.rej 5 ||| (errNumber s.status.errcode <<< 8)

/-- A host write of `v` to STATUS while BUSY = 0 (R21): DONE, ERR and REJ are cleared by a 1, ERR only while FAULT = 0
and ERRCODE with it. -/
def clearStatus (st : Status) (v : Word) : Status :=
  let clearsErr := v.getLsbD 2 && !st.fault
  { done := st.done && !v.getLsbD 1
    err := st.err && !clearsErr
    fault := st.fault
    rej := st.rej && !v.getLsbD 5
    errcode := if clearsErr then .none else st.errcode }

/-- What a read of CONFIG returns (R22). -/
def configWord (b : Build) : Word :=
  flagBit (match b.flagLayout with | .upstream => false | .docProse => true) 0 |||
    flagBit (match b.ctrPos with | .low => false | .high => true) 1

/-- `decode_flags(f)` (R70): hop_limit and hop_start come out as numbers 0 to 7. -/
def decodeFlags (layout : FlagLayout) (f : Byte) : HFlags :=
  match layout with
  | .upstream =>
    { hopLimit := (f.extractLsb' 0 3).setWidth 8, hopStart := (f.extractLsb' 5 3).setWidth 8
      wantAck := f.getLsbD 3, viaMqtt := f.getLsbD 4 }
  | .docProse =>
    { hopLimit := (f.extractLsb' 0 3).setWidth 8, hopStart := (f.extractLsb' 3 3).setWidth 8
      wantAck := f.getLsbD 6, viaMqtt := f.getLsbD 7 }

/-- `encode_flags(hl, hs, wa, vm)` (R71). -/
def encodeFlags (layout : FlagLayout) (hl hs : BitVec 3) (wa vm : Bool) : Byte :=
  let l : Byte := hl.setWidth 8
  let h : Byte := hs.setWidth 8
  let a : Byte := (BitVec.ofBool wa).setWidth 8
  let m : Byte := (BitVec.ofBool vm).setWidth 8
  match layout with
  | .upstream => l ||| (a <<< 3) ||| (m <<< 4) ||| (h <<< 5)
  | .docProse => l ||| (h <<< 3) ||| (a <<< 6) ||| (m <<< 7)

end Sys2Proof.Machine
end

