-- ==== Sys2Proof/Machine/Operands.lean ====
section
/-! DEFINITION. Operand forms: little-endian numbers (R11), regions of PKT (R31), and the register window as the host
reads and writes it (R19, R42 to R49). -/

namespace Sys2Proof.Machine

/-- `le32(B, i)` (R11). -/
def le32At (b : List Byte) (i : Nat) : Word :=
  le32 (b.getD i 0) (b.getD (i + 1) 0) (b.getD (i + 2) 0) (b.getD (i + 3) 0)

/-- The little-endian word at window offset `a` of the buffers (R49). -/
def readLe32 (m : Memory) (a : Nat) : Word :=
  le32 (readByte m a) (readByte m (a + 1)) (readByte m (a + 2)) (readByte m (a + 3))

/-- The region `PKT[off .. off+len)` lies inside PKT (R86, R87); the sum is exact. -/
def regionFits (off len : BitVec 9) : Bool := decide (off.toNat + len.toNat ≤ pktSize)

/-- The window offset of `PKT[off]`. -/
def pktAddr (off : BitVec 9) : Nat := pktBase + off.toNat

/-- The 32-bit view of H_FLAGS (R25). -/
def hFlagsWord (f : HFlags) : Word :=
  f.hopLimit.setWidth 32 ||| (f.hopStart.setWidth 32 <<< 8) ||| flagBit f.wantAck 16 ||| flagBit f.viaMqtt 17

/-- A host write to H_FLAGS keeps its named fields (R25, R47). -/
def hFlagsOf (v : Word) : HFlags where
  hopLimit := v.extractLsb' 0 8
  hopStart := v.extractLsb' 8 8
  wantAck  := v.getLsbD 16
  viaMqtt  := v.getLsbD 17

/-- The 32-bit view of H_ROUTE (R26). -/
def hRouteWord (r : HRoute) : Word :=
  r.channelHash.setWidth 32 ||| (r.nextHop.setWidth 32 <<< 8) ||| (r.relayNode.setWidth 32 <<< 16)

/-- A host write to H_ROUTE keeps its named fields (R26, R47). -/
def hRouteOf (v : Word) : HRoute where
  channelHash := v.extractLsb' 0 8
  nextHop     := v.extractLsb' 8 8
  relayNode   := v.extractLsb' 16 8

/-- What a window offset names (R19). -/
inductive Target where
  | cmd
  | status
  | config
  | result
  | hDest
  | hSender
  | hId
  | hFlags
  | hRoute
  | pktLen
  | nameLen
  | pskLen
  | keyLen
  | srcOff
  | srcLen
  | dstOff
  | dstLen
  /-- A word of the buffers, by its window offset. -/
  | buffer (a : Nat)
  | unmapped
  deriving DecidableEq, Repr

/-- The register map (R19, R42). A misaligned offset is treated as an unmapped one (R45). -/
def targetOf (a : Offset) : Target :=
  if a.extractLsb' 0 2 = 0#2 then
    match a.toNat with
    | 0x000 => .cmd
    | 0x004 => .status
    | 0x008 => .config
    | 0x00C => .result
    | 0x010 => .hDest
    | 0x014 => .hSender
    | 0x018 => .hId
    | 0x01C => .hFlags
    | 0x020 => .hRoute
    | 0x024 => .pktLen
    | 0x028 => .nameLen
    | 0x02C => .pskLen
    | 0x030 => .keyLen
    | 0x034 => .srcOff
    | 0x038 => .srcLen
    | 0x03C => .dstOff
    | 0x040 => .dstLen
    | n => if pktBase ≤ n ∧ n < bufferEnd then .buffer n else .unmapped
  else .unmapped

/-- What a host read returns (R20 to R31, R46, R47, R49). It changes nothing (R48). -/
def readTarget (s : State) : Target → Word
  | .cmd      => 0
  | .status   => statusWord s
  | .config   => configWord s.build
  | .result   => s.regs.result
  | .hDest    => s.regs.hDest
  | .hSender  => s.regs.hSender
  | .hId      => s.regs.hId
  | .hFlags   => hFlagsWord s.regs.hFlags
  | .hRoute   => hRouteWord s.regs.hRoute
  | .pktLen   => s.regs.pktLen.setWidth 32
  | .nameLen  => s.regs.nameLen.setWidth 32
  | .pskLen   => s.regs.pskLen.setWidth 32
  | .keyLen   => s.regs.keyLen.setWidth 32
  | .srcOff   => s.regs.srcOff.setWidth 32
  | .srcLen   => s.regs.srcLen.setWidth 32
  | .dstOff   => s.regs.dstOff.setWidth 32
  | .dstLen   => s.regs.dstLen.setWidth 32
  | .buffer a => readLe32 s.mem a
  | .unmapped => 0

/-- `read(a)` of the host port (R44). -/
def readWindow (s : State) (a : Offset) : Word := readTarget s (targetOf a)

/-- A host write of `v` to a register other than CMD and STATUS while BUSY = 0 (R47): an RW register takes the bits of
its named fields, an RO register and an unmapped offset take nothing. -/
def writeReg (r : Regs) (v : Word) : Target → Regs
  | .hDest    => { r with hDest := v }
  | .hSender  => { r with hSender := v }
  | .hId      => { r with hId := v }
  | .hFlags   => { r with hFlags := hFlagsOf v }
  | .hRoute   => { r with hRoute := hRouteOf v }
  | .pktLen   => { r with pktLen := v.setWidth 9 }
  | .nameLen  => { r with nameLen := v.setWidth 8 }
  | .pskLen   => { r with pskLen := v.setWidth 8 }
  | .keyLen   => { r with keyLen := v.setWidth 6 }
  | .srcOff   => { r with srcOff := v.setWidth 9 }
  | .srcLen   => { r with srcLen := v.setWidth 9 }
  | .dstOff   => { r with dstOff := v.setWidth 9 }
  | .dstLen   => { r with dstLen := v.setWidth 9 }
  | .cmd | .status | .config | .result | .buffer _ | .unmapped => r

/-- A host write while BUSY = 0 to any target but CMD (R21, R46, R47, R49). -/
def writeIdle (s : State) (v : Word) : Target → State
  | .status   => { s with status := clearStatus s.status v }
  | .buffer a => s.storeBytes a (le32bytes v)
  | t         => { s with regs := writeReg s.regs v t }

end Sys2Proof.Machine
end

