-- ==== Sys2Proof/Machine/ChannelHash.lean ====
section
/-! DEFINITION. The channel-hash combinator: CH_HASH (R75). -/

namespace Sys2Proof.Machine

/-- The XOR fold of a byte string, seeded at 0 (R75). -/
def xorFold (bs : List Byte) : Byte := bs.foldl (· ^^^ ·) 0

/-- The bytes CH_HASH folds: the name, then the key (R75). -/
def hashBytes (x : Snapshot) : List Byte :=
  readBytes x.mem nameBase x.regs.nameLen.toNat ++ readBytes x.mem keyBase x.regs.keyLen.toNat

/-- CH_HASH (R75). -/
def execChHash (s : State) : Host.Outcome State Fault Refusal :=
  let x := s.inputs
  if x.regs.nameLen.toNat > nameSize ∨ x.regs.keyLen.toNat > keySize then .next (s.failWith .range)
  else .next (s.succeed ((xorFold (hashBytes x)).setWidth 32))

end Sys2Proof.Machine
end

