-- ==== Sys2Proof/Machine/Aes.lean ====
section
/-! DEFINITION. The AES forward cipher (R90 to R99). A block is held as its 16 bytes in order, so the byte in row `r`
and column `c` of R91's array is byte `r + 4c`. -/

namespace Sys2Proof.Machine

/-- Multiplication by 0x02 in GF(2^8) (R92). -/
def xtime (b : Byte) : Byte := (b <<< 1) ^^^ (if b.getLsbD 7 then 0x1B#8 else 0#8)

/-- The sum of `xtime^k(a)` over the set bits `k < n` of `b`. -/
def gmulBits : Nat → Byte → Byte → Byte
  | 0, _, _ => 0
  | n + 1, a, b => (if b.getLsbD 0 then a else 0#8) ^^^ gmulBits n (xtime a) (b >>> 1)

/-- `mul(a, b)` in GF(2^8) (R92). -/
def gmul (a b : Byte) : Byte := gmulBits 8 a b

/-- The S-box table of R93, one row of 16 bytes a number: the leftmost byte is column x0. -/
def sboxRows : List Nat :=
   [0x637c777bf26b6fc53001672bfed7ab76,
    0xca82c97dfa5947f0add4a2af9ca472c0,
    0xb7fd9326363ff7cc34a5e5f171d83115,
    0x04c723c31896059a071280e2eb27b275,
    0x09832c1a1b6e5aa0523bd6b329e32f84,
    0x53d100ed20fcb15b6acbbe394a4c58cf,
    0xd0efaafb434d338545f9027f503c9fa8,
    0x51a3408f929d38f5bcb6da2110fff3d2,
    0xcd0c13ec5f974417c4a77e3d645d1973,
    0x60814fdc222a908846eeb814de5e0bdb,
    0xe0323a0a4906245cc2d3ac629195e479,
    0xe7c8376d8dd54ea96c56f4ea657aae08,
    0xba78252e1ca6b4c6e8dd741f4bbd8b8a,
    0x703eb5664803f60e613557b986c11d9e,
    0xe1f8981169d98e949b1e87e9ce5528df,
    0x8ca1890dbfe6426841992d0fb054bb16]

/-- `SBOX(a)` (R93): row = high hex digit, column = low hex digit. -/
def sbox (a : Byte) : Byte :=
  BitVec.ofNat 8 (sboxRows.getD (a.toNat / 16) 0 >>> (8 * (15 - a.toNat % 16)))

/-- SubBytes (R94), and SubWord on a word of the key schedule (R98). -/
def subBytes (b : List Byte) : List Byte := b.map sbox

/-- ShiftRows (R95): byte `r + 4c` comes from byte `r + 4((c + r) mod 4)`. -/
def shiftRows (b : List Byte) : List Byte :=
  (List.range 16).map (fun k => b.getD (k % 4 + 4 * ((k / 4 + k % 4) % 4)) 0)

/-- One column of MixColumns (R96). -/
def mixColumn (a0 a1 a2 a3 : Byte) : List Byte :=
  [gmul a0 2 ^^^ gmul a1 3 ^^^ a2 ^^^ a3,
   a0 ^^^ gmul a1 2 ^^^ gmul a2 3 ^^^ a3,
   a0 ^^^ a1 ^^^ gmul a2 2 ^^^ gmul a3 3,
   gmul a0 3 ^^^ a1 ^^^ a2 ^^^ gmul a3 2]

/-- MixColumns (R96): column after column. -/
def mixColumns : List Byte → List Byte
  | a0 :: a1 :: a2 :: a3 :: rest => mixColumn a0 a1 a2 a3 ++ mixColumns rest
  | _ => []

/-- `RotWord` (R98). -/
def rotWord : List Byte → List Byte
  | a0 :: rest => rest ++ [a0]
  | [] => []

/-- `Rcon[i]` (R98): 0x01 and then `xtime` of the one before; `rcon 0` is not used. -/
def rcon (i : Nat) : Byte := [0, 0x01, 0x02, 0x04, 0x08, 0x10, 0x20, 0x40, 0x80, 0x1b, 0x36].getD i 0

/-- A key cut into its 4-byte words (R91, R98). -/
def keyWords : List Byte → List (List Byte)
  | a0 :: a1 :: a2 :: a3 :: rest => [a0, a1, a2, a3] :: keyWords rest
  | _ => []

/-- The word the key schedule adds after the words `w` (R98), for `Nk` = `nk`. -/
def nextKeyWord (nk : Nat) (w : List (List Byte)) : List Byte :=
  let i := w.length
  let t := w.getD (i - 1) []
  let t' :=
    if i % nk = 0 then xorBytes (subBytes (rotWord t)) [rcon (i / nk), 0, 0, 0]
    else if nk = 8 ∧ i % nk = 4 then subBytes t
    else t
  xorBytes (w.getD (i - nk) []) t'

/-- `n` more words of the key schedule. -/
def extendKey (nk : Nat) : Nat → List (List Byte) → List (List Byte)
  | 0, w => w
  | n + 1, w => extendKey nk n (w ++ [nextKeyWord nk w])

/-- The number of rounds (R90): 10 for a 16-byte key, 14 for a 32-byte key. -/
def aesRounds (key : List Byte) : Nat := key.length / 4 + 6

/-- Key expansion (R98): `4*(Nr+1)` words. -/
def keyExpansion (key : List Byte) : List (List Byte) :=
  let nk := key.length / 4
  extendKey nk (4 * (aesRounds key + 1) - nk) (keyWords key)

/-- AddRoundKey(rnd) (R97): byte `r + 4c` takes byte `r` of word `4*rnd + c`. -/
def addRoundKey (w : List (List Byte)) (rnd : Nat) (b : List Byte) : List Byte :=
  xorBytes b ((w.drop (4 * rnd)).take 4).flatten

/-- Rounds `rnd` up to but not including `rnd + n`, each with MixColumns (R99). -/
def middleRounds (w : List (List Byte)) : Nat → Nat → List Byte → List Byte
  | 0, _, b => b
  | n + 1, rnd, b => middleRounds w n (rnd + 1) (addRoundKey w rnd (mixColumns (shiftRows (subBytes b))))

/-- `AES_K(B)` (R99). -/
def aes (key block : List Byte) : List Byte :=
  let w := keyExpansion key
  let nr := aesRounds key
  addRoundKey w nr (shiftRows (subBytes (middleRounds w (nr - 1) 1 (addRoundKey w 0 block))))

end Sys2Proof.Machine
end

