-- ==== Sys2Proof/Machine/CipherEngine.lean ====
section
/-! DEFINITION. The AES counter-mode engine: nonce, counter block and keystream (R82 to R84), and the commands
CTR_BUILD, CTR_APPLY and CTR_APPLY_TO (R85 to R87). -/

namespace Sys2Proof.Machine

/-- `nonce(id, sender)` (R82). -/
def nonce (id sender : Word) : List Byte := le32bytes id ++ zeros 4 ++ le32bytes sender ++ zeros 4

/-- `CB(N0, i)` (R83): the 32-bit little-endian counter, modulo 2^32, in the place CTR_POS names. -/
def counterBlock (pos : CtrPos) (n0 : List Byte) (i : Nat) : List Byte :=
  match pos with
  | .low  => le32bytes (le32At n0 0 + BitVec.ofNat 32 i) ++ (n0.drop 4).take 12
  | .high => n0.take 12 ++ le32bytes (le32At n0 12 + BitVec.ofNat 32 i)

/-- The key of a context: `CTX_KEY[0 .. CTX_KLEN)` (R84). -/
def contextKey (c : Context) : List Byte := c.key.toList.take c.klen.toNat

/-- The keystream block of counter index `i` (R84). -/
def keyBlock (pos : CtrPos) (c : Context) (i : Nat) : List Byte :=
  aes (contextKey c) (counterBlock pos c.n0.toList i)

/-- `KS(j)` (R84). -/
def keyByte (pos : CtrPos) (c : Context) (j : Nat) : Byte := (keyBlock pos c (j / 16)).getD (j % 16) 0

/-- `KS(0) .. KS(n-1)`, each block computed once (`keyByte` gives its bytes: Laws/Cipher.lean). -/
def keystream (pos : CtrPos) (c : Context) (n : Nat) : List Byte :=
  ((List.range ((n + 15) / 16)).flatMap (fun i => (List.range 16).map ((keyBlock pos c i).getD · 0))).take n

/-- CTR_BUILD (R85). -/
def execCtrBuild (s : State) : Host.Outcome State Fault Refusal :=
  let x := s.inputs
  let n := x.regs.keyLen.toNat
  if n ≠ 16 ∧ n ≠ 32 then .next (s.faultWith .keyContract)
  else
    .next ((s.loadContext x.regs.keyLen (readBytes x.mem keyBase n ++ zeros (32 - n))
      (nonce x.regs.hId x.regs.hSender)).succeed (BitVec.ofNat 32 (8 * n)))

/-- The source region XORed with the keystream (R86, R87). -/
def cipherBytes (pos : CtrPos) (x : Snapshot) : List Byte :=
  xorBytes (readBytes x.mem (pktAddr x.regs.srcOff) x.regs.srcLen.toNat) (keystream pos x.ctx x.regs.srcLen.toNat)

/-- The end of a successful CTR_APPLY or CTR_APPLY_TO: the bytes go to `PKT[dst ..)`, the context is discarded, RESULT
is their number (R86, R87). -/
def finishApply (s : State) (dst : BitVec 9) (bs : List Byte) : State :=
  ((s.storeBytes (pktAddr dst) bs).dropContext).succeed (BitVec.ofNat 32 bs.length)

/-- CTR_APPLY (R86). -/
def execCtrApply (s : State) : Host.Outcome State Fault Refusal :=
  let x := s.inputs
  if x.ctx.valid = false then .next (s.failWith .noContext)
  else if regionFits x.regs.srcOff x.regs.srcLen = false then .next (s.failWith .range)
  else .next (finishApply s x.regs.srcOff (cipherBytes s.build.ctrPos x))

/-- CTR_APPLY_TO (R87). -/
def execCtrApplyTo (s : State) : Host.Outcome State Fault Refusal :=
  let x := s.inputs
  if x.ctx.valid = false then .next (s.failWith .noContext)
  else if x.regs.srcLen ≠ x.regs.dstLen then .next (s.failWith .lengthMismatch)
  else if regionFits x.regs.srcOff x.regs.srcLen = false ∨ regionFits x.regs.dstOff x.regs.dstLen = false then
    .next (s.failWith .range)
  else .next (finishApply s x.regs.dstOff (cipherBytes s.build.ctrPos x))

end Sys2Proof.Machine
end

