-- ==== Sys2Proof/Machine/Control.lean ====
section
/-! DEFINITION. The control commands: SRESET (R100) and the illegal command words (R101). -/

namespace Sys2Proof.Machine

/-- SRESET (R100): the reset of R116, at once; the command in flight is abandoned. -/
def execSreset (s : State) : Host.Outcome State Fault Refusal := .next s.resetBlock

/-- `raise ILLEGAL_COMMAND` (R101). -/
def raiseIllegal (s : State) : Host.Outcome State Fault Refusal := .next (s.failWith .illegalCommand)

/-- The word 0x00000000 (R101: there is no no-op command). -/
def execIllegal0 (s : State) : Host.Outcome State Fault Refusal := raiseIllegal s

/-- The word 0x00000008 (R101). -/
def execIllegal8 (s : State) : Host.Outcome State Fault Refusal := raiseIllegal s

/-- The word 0x00000009 (R101). -/
def execIllegal9 (s : State) : Host.Outcome State Fault Refusal := raiseIllegal s

/-- The word 0x0000000A (R101). -/
def execIllegalA (s : State) : Host.Outcome State Fault Refusal := raiseIllegal s

/-- The word 0x0000000B (R101). -/
def execIllegalB (s : State) : Host.Outcome State Fault Refusal := raiseIllegal s

/-- The word 0x0000000C (R101). -/
def execIllegalC (s : State) : Host.Outcome State Fault Refusal := raiseIllegal s

/-- The word 0x0000000D (R101). -/
def execIllegalD (s : State) : Host.Outcome State Fault Refusal := raiseIllegal s

/-- The word 0x0000000E (R101). -/
def execIllegalE (s : State) : Host.Outcome State Fault Refusal := raiseIllegal s

/-- A word with a reserved bit set (R63, R101): illegal whatever its OP field, 0xF included. -/
def execIllegalRsvd (_rsvd : BitVec 28) (_op : BitVec 4) (s : State) : Host.Outcome State Fault Refusal :=
  raiseIllegal s

end Sys2Proof.Machine
end

