-- ==== Sys2Proof/Machine/HeaderCodec.lean ====
section
/-! DEFINITION. The header codec: HDR_PARSE and HDR_SERIALIZE (R65, R70 to R73). -/

namespace Sys2Proof.Machine

/-- HDR_PARSE (R72). -/
def execHdrParse (s : State) : Host.Outcome State Fault Refusal :=
  let x := s.inputs
  if x.regs.pktLen.toNat < headerSize then .next (s.failWith .truncatedInput)
  else
    .next ((s.setHeader (readLe32 x.mem pktBase) (readLe32 x.mem (pktBase + 4)) (readLe32 x.mem (pktBase + 8))
      (decodeFlags s.build.flagLayout (readByte x.mem (pktBase + 12)))
      { channelHash := readByte x.mem (pktBase + 13)
        nextHop := readByte x.mem (pktBase + 14)
        relayNode := readByte x.mem (pktBase + 15) }).succeed 16)

/-- The 16 bytes of the wire header that the header registers stand for (R65, R73). -/
def wireImage (layout : FlagLayout) (r : Regs) : List Byte :=
  le32bytes r.hDest ++ le32bytes r.hSender ++ le32bytes r.hId ++
    [encodeFlags layout (r.hFlags.hopLimit.setWidth 3) (r.hFlags.hopStart.setWidth 3) r.hFlags.wantAck r.hFlags.viaMqtt,
      r.hRoute.channelHash, r.hRoute.nextHop, r.hRoute.relayNode]

/-- HDR_SERIALIZE (R73). -/
def execHdrSerialize (s : State) : Host.Outcome State Fault Refusal :=
  let x := s.inputs
  if x.regs.hFlags.hopLimit.toNat > 7 ∨ x.regs.hFlags.hopStart.toNat > 7 then .next (s.failWith .fieldOutOfRange)
  else .next ((s.storeBytes pktBase (wireImage s.build.flagLayout x.regs)).succeed 16)

end Sys2Proof.Machine
end

