-- ==== Sys2Proof/Machine/KeyDeriver.lean ====
section
/-! DEFINITION. The PSK key deriver: base64 (R68, R78) and PSK_DERIVE (R79, R80). -/

namespace Sys2Proof.Machine

/-- The pad character `=` (R68). -/
def b64Pad : Byte := 0x3D

/-- The value of a base64 data character; none for every other byte (R68). -/
def b64Value (c : Byte) : Option (BitVec 6) :=
  let n := c.toNat
  if 0x41 ≤ n ∧ n ≤ 0x5A then some (BitVec.ofNat 6 (n - 0x41))
  else if 0x61 ≤ n ∧ n ≤ 0x7A then some (BitVec.ofNat 6 (n - 0x61 + 26))
  else if 0x30 ≤ n ∧ n ≤ 0x39 then some (BitVec.ofNat 6 (n - 0x30 + 52))
  else if n = 0x2B then some 62
  else if n = 0x2F then some 63
  else none

/-- The first byte of a group (R78). -/
def b64Byte0 (v0 v1 : BitVec 6) : Byte := (v0.setWidth 8 <<< 2) ||| (v1.setWidth 8 >>> 4)

/-- The second byte of a group (R78). -/
def b64Byte1 (v1 v2 : BitVec 6) : Byte := ((v1.setWidth 8 &&& 0x0F#8) <<< 4) ||| (v2.setWidth 8 >>> 2)

/-- The third byte of a group (R78). -/
def b64Byte2 (v2 v3 : BitVec 6) : Byte := ((v2.setWidth 8 &&& 0x03#8) <<< 6) ||| v3.setWidth 8

/-- A group of four data characters, `p = 0` (R78). -/
def b64Group0 (q0 q1 q2 q3 : Byte) : Option (List Byte) := do
  let v0 ← b64Value q0
  let v1 ← b64Value q1
  let v2 ← b64Value q2
  let v3 ← b64Value q3
  some [b64Byte0 v0 v1, b64Byte1 v1 v2, b64Byte2 v2 v3]

/-- A last group with one pad character, `p = 1`: its unused bits are 0 (R78). -/
def b64Group1 (q0 q1 q2 : Byte) : Option (List Byte) := do
  let v0 ← b64Value q0
  let v1 ← b64Value q1
  let v2 ← b64Value q2
  if v2 &&& 0x03#6 ≠ 0#6 then none else some [b64Byte0 v0 v1, b64Byte1 v1 v2]

/-- A last group with two pad characters, `p = 2`: its unused bits are 0 (R78). -/
def b64Group2 (q0 q1 : Byte) : Option (List Byte) := do
  let v0 ← b64Value q0
  let v1 ← b64Value q1
  if v1 &&& 0x0F#6 ≠ 0#6 then none else some [b64Byte0 v0 v1]

/-- The last group of a text, the only one where pad characters may stand (R78). -/
def b64LastGroup (q0 q1 q2 q3 : Byte) : Option (List Byte) :=
  if q2 = b64Pad ∧ q3 = b64Pad then b64Group2 q0 q1
  else if q3 = b64Pad then b64Group1 q0 q1 q2
  else b64Group0 q0 q1 q2 q3

/-- `b64decode(T)` (R78): canonical, padded standard base64, and nothing else. -/
def b64decode : List Byte → Option (List Byte)
  | [] => some []
  | q0 :: q1 :: q2 :: q3 :: rest =>
    match rest with
    | [] => b64LastGroup q0 q1 q2 q3
    | _ :: _ => do
      let group ← b64Group0 q0 q1 q2 q3
      let tail ← b64decode rest
      some (group ++ tail)
  | _ => none

/-- What a decoded PSK turns into (R79). -/
inductive PskKey where
  /-- A key of 16 or 32 bytes. -/
  | key (bytes : List Byte)
  /-- "no encryption": one byte 0x00. -/
  | cleartext
  /-- No key, with the error that says why. -/
  | error (e : ErrCode)
  deriving DecidableEq, Repr

/-- DEFAULT_KEY with `v - 1` added to its last byte, modulo 256 (R79, R80). -/
def modifiedDefault (dk : Vector Byte 16) (v : Byte) : List Byte :=
  dk.toList.take 15 ++ [dk.toList.getD 15 0 + v - 1#8]

/-- The key of a decoded PSK, by its length (R79): short ones are padded on the left. -/
def pskKey (dk : Vector Byte 16) (d : List Byte) : PskKey :=
  let n := d.length
  if n = 0 then .error .emptyPsk
  else if n = 1 then
    if d.getD 0 0 = 0#8 then .cleartext else .key (modifiedDefault dk (d.getD 0 0))
  else if n = 16 ∨ n = 32 then .key d
  else if 2 ≤ n ∧ n ≤ 15 then .key (zeros (16 - n) ++ d)
  else if 17 ≤ n ∧ n ≤ 31 then .key (zeros (32 - n) ++ d)
  else .error .unsupportedKeyLength

/-- PSK_DERIVE with a key: KEY[0..32), KEY_LEN and RESULT (R79). The empty key is the cleartext result. -/
def finishDerive (s : State) (key : List Byte) : State :=
  ((s.storeBytes keyBase (key ++ zeros (keySize - key.length))).setKeyLen (BitVec.ofNat 6 key.length)).succeed
    (BitVec.ofNat 32 key.length)

/-- The PSK text: the first PSK_LEN characters of PSK_TEXT (R79). -/
def pskText (x : Snapshot) : List Byte := readBytes x.mem pskBase x.regs.pskLen.toNat

/-- PSK_DERIVE (R79). -/
def execPskDerive (s : State) : Host.Outcome State Fault Refusal :=
  let x := s.inputs
  if x.regs.pskLen.toNat > pskSize then .next (s.failWith .range)
  else
    match b64decode (pskText x) with
    | none => .next (s.failWith .invalidEncoding)
    | some d =>
      match pskKey s.build.defaultKey d with
      | .error e   => .next (s.failWith e)
      | .cleartext => .next (finishDerive s [])
      | .key k     => .next (finishDerive s k)

end Sys2Proof.Machine
end

