-- ==== Sys2Proof/Machine/Dispatch.lean ====
section
/-! DEFINITION. One command's effect: its completion (R40), or for SRESET its effect at the host write (R100). -/

namespace Sys2Proof.Machine

/-- The effect of a command, read from `State.inputs`. -/
def exec (i : Instr) (s : State) : Host.Outcome State Fault Refusal :=
  match i with
  | .hdrParse => Sys2Proof.Machine.execHdrParse s
  | .hdrSerialize => Sys2Proof.Machine.execHdrSerialize s
  | .chHash => Sys2Proof.Machine.execChHash s
  | .pskDerive => Sys2Proof.Machine.execPskDerive s
  | .ctrBuild => Sys2Proof.Machine.execCtrBuild s
  | .ctrApply => Sys2Proof.Machine.execCtrApply s
  | .ctrApplyTo => Sys2Proof.Machine.execCtrApplyTo s
  | .sreset => Sys2Proof.Machine.execSreset s
  | .illegal0 => Sys2Proof.Machine.execIllegal0 s
  | .illegal8 => Sys2Proof.Machine.execIllegal8 s
  | .illegal9 => Sys2Proof.Machine.execIllegal9 s
  | .illegalA => Sys2Proof.Machine.execIllegalA s
  | .illegalB => Sys2Proof.Machine.execIllegalB s
  | .illegalC => Sys2Proof.Machine.execIllegalC s
  | .illegalD => Sys2Proof.Machine.execIllegalD s
  | .illegalE => Sys2Proof.Machine.execIllegalE s
  | .illegalRsvd rsvd op => Sys2Proof.Machine.execIllegalRsvd rsvd op s

end Sys2Proof.Machine
end

