-- ==== Sys2Proof/Machine/HostPort.lean ====
section
/-! DEFINITION. The two agents' steps (R16): a host transaction (R39, R41, R44 to R49) and the completion of the command
in flight (R40); and the hard reset (R116, R118). -/

namespace Sys2Proof.Machine

/-- A host write to CMD, its four cases in the order R39 tests them. -/
def writeCmd (w : Word) (s : State) : Host.Outcome State Fault Refusal :=
  if w = sresetWord then exec (decodeWord w) s
  else if s.busy then .next s.reject
  else if s.status.fault then .next s.reject
  else .next (s.start w)

/-- A host write (R39, R41): while a command is in flight, only SRESET is taken. -/
def hostWrite (a : Offset) (v : Word) (s : State) : Host.Outcome State Fault Refusal :=
  match targetOf a with
  | .cmd => writeCmd v s
  | t    => if s.busy then .next s.reject else .next (writeIdle s v t)

/-- A host transaction (R44). A read hands its value back and changes nothing of the block (R48). -/
def hostTransaction (t : HostTxn) (s : State) : Host.Outcome State Fault Refusal :=
  match t with
  | .read a    => .next (s.respond (readWindow s a))
  | .write a v => hostWrite a v s

/-- The command engine's step (R40): the command in flight completes; with none in flight nothing happens
(log entry 10). -/
def completion (s : State) : Host.Outcome State Fault Refusal :=
  match s.inflight with
  | some f => exec (decodeWord f.word) s
  | none   => .next s

/-- One event, already off the outside's list. While the hard reset input is asserted a host transaction has no
meaning (R118; log entry 3). -/
def handle (e : Event) (s : State) : Host.Outcome State Fault Refusal :=
  match e with
  | .host t       => if s.port.resetIn then .refused .hostTransactionDuringReset else hostTransaction t s
  | .complete     => completion s
  | .assertReset  => .next (s.resetBlock.setResetIn true)
  | .releaseReset => .next (s.setResetIn false)

/-- What comes next: the first event outside; with none left, the command in flight completes (R125: it eventually
does), and an idle block waits (R117; log entries 2 and 10). -/
def advance (s : State) : Host.Outcome State Fault Refusal :=
  match s.port.events with
  | []      => completion s
  | e :: es => handle e (s.withEvents es)

/-- The command word `w` made the very next command: SRESET as the next host write (R100), every other word as the
command just started, its completion next (R40). -/
def fetchable (s : State) (w : Word) : State :=
  if w = sresetWord then
    (s.withEvents (.host (.write 0 w) :: s.port.events)).setResetIn false
  else
    (s.start w).withEvents (.complete :: s.port.events)

end Sys2Proof.Machine
end

