-- ==== Sys2Proof/Machine/Step.lean ====
section
/-! DEFINITION. One step of the machine (R55): one host transaction, one completion, or one edge of the hard reset. -/

namespace Sys2Proof.Machine

/-- One step. -/
def step (s : State) : Host.Outcome State Fault Refusal := advance s

/-- `s` with the command word `w` placed so that the very next step runs exactly it (log entry 5). -/
def State.withFetchWord (s : State) (nbits w : Nat) : State := fetchable s (BitVec.ofNat 32 (w % 2 ^ nbits))

end Sys2Proof.Machine
end

