-- ==== Sys2Proof/Safety.lean ====
section
/-! DEFINITION. The words claims are made in: the invariant every step keeps, a command run from start to completion,
how a command fails, and numbers and texts written independently of the machine. -/

namespace Sys2Proof.Machine

/-- What holds of the machine at reset and after every step. -/
structure State.Inv (s : State) : Prop where
  /-- The buffers are in canonical form and list only buffer offsets (R42). -/
  memWf : s.mem.wf
  memInBuffers : s.mem.inBuffers
  /-- ERRCODE is 0 exactly while ERR = 0 (R21). -/
  errcodeNone : s.status.errcode = .none ↔ s.status.err = false
  /-- DONE and ERR are not both set: a start clears both, a completion sets one (R40). -/
  doneNotErr : s.status.done = true → s.status.err = false
  /-- KEY_CONTRACT stands in ERRCODE exactly in the fault state (R103, R108). -/
  faultCode : s.status.fault = true ↔ s.status.errcode = .keyContract
  /-- In the fault state no context is loaded and no command is in flight (R108). -/
  faultQuiet : s.status.fault = true → s.ctx.valid = false ∧ s.inflight = none
  /-- A loaded context has a key of 16 or 32 bytes (R36, R85). -/
  ctxKlen : s.ctx.valid = true → s.ctx.klen = 16#6 ∨ s.ctx.klen = 32#6
  /-- While a command is in flight DONE and ERR are 0 (R40), it is not SRESET (R39), and its snapshot equals the live
  registers, buffers and context (R40). -/
  flight : ∀ f, s.inflight = some f →
    s.status.done = false ∧ s.status.err = false ∧ f.word ≠ sresetWord ∧
      f.snap.regs = s.regs ∧ f.snap.mem = s.mem ∧ f.snap.ctx = s.ctx
  /-- While the hard reset input is asserted the block stays at its reset values (R116, R118). -/
  heldInReset : s.port.resetIn = true → s.snapshot = Snapshot.reset ∧ s.inflight = none

/-- A command from its start to its completion with nothing between (R40). -/
def runCommand (i : Instr) (s : State) : Host.Outcome State Fault Refusal := exec i (s.start (encode i))

/-- The command completes with error `e`: STATUS.ERR and STATUS.ERRCODE are written, the command is over, and nothing
else changes (R40, R104). -/
def FailsWith (i : Instr) (s : State) (e : ErrCode) : Prop :=
  exec i s = .next { s with
    status := { s.status with err := true, errcode := e }
    inflight := none }

/-- The parts of STATUS a successful completion sets: DONE is 1, the other stored bits stay (R40). -/
def Succeeded (s t : State) : Prop :=
  t.status = { s.status with done := true } ∧ t.inflight = none

/-- The number a byte string stands for, least significant byte first (R11). -/
def leNat : List Byte → Nat
  | [] => 0
  | b :: bs => b.toNat + 256 * leNat bs

/-- A Boolean as the number 0 or 1. -/
def bitNat (b : Bool) : Nat := if b then 1 else 0

/-- A word the spec calls illegal (R63): a bit of [31:4] set, or OP one of 0x0, 0x8 to 0xE. -/
abbrev IllegalWord (w : Word) : Prop :=
  w.toNat / 16 ≠ 0 ∨ w.toNat % 16 = 0 ∨ (8 ≤ w.toNat % 16 ∧ w.toNat % 16 ≤ 14)

/-- An offset that R42 maps and that is word-aligned (R45). -/
abbrev MappedOffset (a : Offset) : Prop :=
  a.toNat % 4 = 0 ∧ (a.toNat < 0x044 ∨ (0x100 ≤ a.toNat ∧ a.toNat < 0x2A0))

/-- The registers the host can write and the bits of their named fields (R19, R24 to R31). -/
def rwRegisters : List (Offset × Word) :=
  [(0x010, 0xFFFFFFFF), (0x014, 0xFFFFFFFF), (0x018, 0xFFFFFFFF), (0x01C, 0x0003FFFF), (0x020, 0x00FFFFFF),
   (0x024, 0x000001FF), (0x028, 0x000000FF), (0x02C, 0x000000FF), (0x030, 0x0000003F),
   (0x034, 0x000001FF), (0x038, 0x000001FF), (0x03C, 0x000001FF), (0x040, 0x000001FF)]

/-- `b` is the multiplicative inverse of `a` in GF(2^8), 0 for `a` = 0 (R93). -/
abbrev IsGfInverse (a b : Byte) : Prop := (a = 0#8 ∧ b = 0#8) ∨ gmul a b = 1#8

/-- The affine map that turns an inverse into an S-box value (R93). -/
def sboxAffine (b : Byte) : Byte :=
  b ^^^ b.rotateLeft 1 ^^^ b.rotateLeft 2 ^^^ b.rotateLeft 3 ^^^ b.rotateLeft 4 ^^^ 0x63#8

/-- The base64 alphabet in order of value (R68). -/
def b64Alphabet : List Byte :=
  (List.range 26).map (fun k => BitVec.ofNat 8 (0x41 + k)) ++ (List.range 26).map (fun k => BitVec.ofNat 8 (0x61 + k)) ++
    (List.range 10).map (fun k => BitVec.ofNat 8 (0x30 + k)) ++ [0x2B, 0x2F]

/-- The character of the 6-bit value `n` (R68). -/
def b64Char (n : Nat) : Byte := b64Alphabet.getD n 0

/-- The canonical padded base64 text of a byte string (RFC 4648 §4, as R78 reads it): written for the claim that
`b64decode` accepts exactly these texts. -/
def b64encode : List Byte → List Byte
  | [] => []
  | [a] => [b64Char (a.toNat / 4), b64Char (a.toNat % 4 * 16), b64Pad, b64Pad]
  | [a, b] =>
    [b64Char (a.toNat / 4), b64Char (a.toNat % 4 * 16 + b.toNat / 16), b64Char (b.toNat % 16 * 4), b64Pad]
  | a :: b :: c :: rest =>
    [b64Char (a.toNat / 4), b64Char (a.toNat % 4 * 16 + b.toNat / 16),
      b64Char (b.toNat % 16 * 4 + c.toNat / 64), b64Char (c.toNat % 64)] ++ b64encode rest

/-- PSK_DERIVE succeeds with the key `k` (the empty key: cleartext): KEY holds it, filled with zeros, KEY_LEN and
RESULT are its length, and nothing else is written (R79). -/
def DerivesKey (s : State) (k : List Byte) : Prop :=
  ∃ t, exec .pskDerive s = .next t ∧ Succeeded s t ∧
    readBytes t.mem 0x280 32 = k ++ List.replicate (32 - k.length) 0#8 ∧
    (∀ a, a < 0x280 ∨ 0x2A0 ≤ a → readByte t.mem a = readByte s.mem a) ∧
    t.regs.keyLen.toNat = k.length ∧ t.regs.result.toNat = k.length ∧
    t.regs = { s.regs with result := t.regs.result, keyLen := t.regs.keyLen } ∧ t.ctx = s.ctx

/-- The keystream byte R84 gives: byte `j mod 16` of the encrypted counter block of index `j div 16`. -/
def specKeyByte (pos : CtrPos) (c : Context) (j : Nat) : Byte :=
  (aes (c.key.toList.take c.klen.toNat) (counterBlock pos c.n0.toList (j / 16))).getD (j % 16) 0

end Sys2Proof.Machine
end

