-- ==== Sys2Proof/Certificates/Slice0/Obligations.lean ====
section
/-! DEFINITION. The statements for the provers. `s`, `t` are states before and after; `s.inputs` is the snapshot a
command reads (R13, R40). Statements that read a byte back after writing it assume the memory's canonical form, which
StepKeepsInvariant keeps. -/

open Sys2Proof Sys2Proof.Machine

/-! ### Encoding -/

/-- R62: the 16 words with bits [31:4] = 0. -/
def Obligations.OpcodeMapDecodes : Prop :=
  decodeWord 0x00000000 = .illegal0 ∧ decodeWord 0x00000001 = .hdrParse ∧ decodeWord 0x00000002 = .hdrSerialize ∧
  decodeWord 0x00000003 = .chHash ∧ decodeWord 0x00000004 = .pskDerive ∧ decodeWord 0x00000005 = .ctrBuild ∧
  decodeWord 0x00000006 = .ctrApply ∧ decodeWord 0x00000007 = .ctrApplyTo ∧ decodeWord 0x00000008 = .illegal8 ∧
  decodeWord 0x00000009 = .illegal9 ∧ decodeWord 0x0000000A = .illegalA ∧ decodeWord 0x0000000B = .illegalB ∧
  decodeWord 0x0000000C = .illegalC ∧ decodeWord 0x0000000D = .illegalD ∧ decodeWord 0x0000000E = .illegalE ∧
  decodeWord 0x0000000F = .sreset ∧ decodeWord 0x0000001F = .illegalRsvd 0x0000001 0xF

/-- Every well-formed command, laid out as bytes, decodes to itself, whatever follows it. That the bytes stand least
significant first is the model's choice (log entry 15). -/
def Obligations.DecodeOfEncodeIsIdentity : Prop :=
  ∀ (i : Instr) (rest : List Byte), i.WellFormed → decode (encodeBytes i ++ rest) = .ok (i, rest)

/-- Every 32-bit word decodes to a well-formed command whose encoding is that word; only a string shorter than one word
is turned away. The clauses about bytes, least significant first and at least four of them, are the model's choice (log
entry 15). -/
def Obligations.EncodeOfDecodeIsIdentity : Prop :=
  (∀ w : Word, (decodeWord w).WellFormed ∧ encode (decodeWord w) = w ∧
    decode (le32bytes w) = .ok (decodeWord w, [])) ∧
  (∀ bs : List Byte, decode bs = .error .truncatedWord ↔ bs.length < 4)

/-- R63: exactly these words are illegal; a word with OP = 0xF and a reserved bit set is not a soft reset. -/
def Obligations.IllegalWordsAreExactlyTheReservedOnes : Prop :=
  ∀ w : Word, ((decodeWord w).isIllegal = true ↔ IllegalWord w) ∧ (decodeWord w = .sreset ↔ w.toNat = 15)

/-! ### The command lifecycle and the host port -/

/-- A step whose turn is the completion's runs the command decoded from the word in flight (log
entry 2: whose turn it is; log entry 15: its bytes, least significant first). -/
def Obligations.CompletionStepRunsDecodedCommand : Prop :=
  ∀ (s : State) (f : InFlight) (i : Instr), s.inflight = some f → decode (le32bytes f.word) = .ok (i, []) →
    (∀ es, s.port.events = .complete :: es → step s = exec i (s.withEvents es)) ∧
    (s.port.events = [] → step s = exec i s)

/-- A step whose turn is the host's runs that transaction: a read answers the value the window shows, a write is
`hostWrite`; a write of the SRESET word to CMD runs the decoded command at once (log entry 2: whose turn it is). -/
def Obligations.HostStepRunsTransaction : Prop :=
  ∀ (s : State) (es : List Event), s.port.resetIn = false →
    (∀ a, s.port.events = .host (.read a) :: es →
      step s = .next ((s.withEvents es).respond (readWindow s a))) ∧
    (∀ a v, s.port.events = .host (.write a v) :: es → step s = hostWrite a v (s.withEvents es)) ∧
    (s.port.events = .host (.write 0 sresetWord) :: es →
      step s = exec (decodeWord sresetWord) (s.withEvents es))

/-- R39: the four cases of a host write to CMD. That the snapshot holds the context too, and STATUS as it stood before the
start, is the model's reading (log entry 6). -/
def Obligations.CmdWriteFollowsTheFourCases : Prop :=
  ∀ (s : State) (w : Word) (es : List Event), s.port.resetIn = false → s.port.events = .host (.write 0 w) :: es →
    (w = 0x0000000F → step s = .next (s.withEvents es).resetBlock) ∧
    (w ≠ 0x0000000F → s.busy = true ∨ s.status.fault = true →
      step s = .next { s.withEvents es with status := { s.status with rej := true } }) ∧
    (w ≠ 0x0000000F → s.busy = false → s.status.fault = false →
      ∃ t, step s = .next t ∧
        t.inflight = some { word := w, snap := { status := s.status, regs := s.regs, mem := s.mem, ctx := s.ctx } } ∧
        t.busy = true ∧ t.status.done = false ∧ t.status.err = false ∧ t.status.errcode = .none ∧
        t.status.rej = s.status.rej ∧ t.status.fault = s.status.fault ∧ t.ctx = s.ctx ∧ t.regs = s.regs ∧
        t.mem = s.mem)

/-- R41: which host writes are rejected, and that a rejected one only sets REJ. -/
def Obligations.RejectedHostWriteOnlySetsRej : Prop :=
  ∀ (s : State) (a : Offset) (v : Word) (es : List Event),
    s.port.resetIn = false → s.port.events = .host (.write a v) :: es →
    let sresetWrite := a = 0 ∧ v = 0x0000000F
    let rejected := (s.busy = true ∧ ¬ sresetWrite) ∨ (s.busy = false ∧ s.status.fault = true ∧ a = 0 ∧ ¬ sresetWrite)
    (rejected → step s = .next { s.withEvents es with status := { s.status with rej := true } }) ∧
    (¬ rejected → ∃ t, step s = .next t ∧ (t.status.rej = true → s.status.rej = true))

/-- R40: whatever the outcome, the command is over; no command touches the build or the outside. -/
def Obligations.EveryCommandEndsItsFlight : Prop :=
  ∀ (i : Instr) (s : State), ∃ t, exec i s = .next t ∧ t.inflight = none ∧ t.busy = false ∧ t.build = s.build ∧
    t.port = s.port

/-- R104: a command that ends in an error or a fault (ERR, 0 while it is in flight, is 1 after it) writes only STATUS, and
for a fault CTX_VALID. -/
def Obligations.FailedCommandWritesOnlyStatus : Prop :=
  ∀ (i : Instr) (s t : State), exec i s = .next t → s.status.err = false → t.status.err = true →
    t.regs = s.regs ∧ t.mem = s.mem ∧ t.build = s.build ∧ t.port = s.port ∧
    (t.ctx = s.ctx ∨ (t.status.fault = true ∧ t.ctx = { s.ctx with valid := false }))

/-- R40, R103: a command other than SRESET ends in success (DONE), in an error, or in the fault KEY_CONTRACT; it leaves
REJ alone. -/
def Obligations.CommandOutcomeIsSuccessErrorOrFault : Prop :=
  ∀ (i : Instr) (s t : State), i ≠ .sreset → exec i s = .next t →
    t.status = { s.status with done := true } ∨
    (∃ e, e ≠ .none ∧ e ≠ .keyContract ∧ t.status = { s.status with err := true, errcode := e }) ∨
    (i = .ctrBuild ∧ t.status = { s.status with err := true, errcode := .keyContract, fault := true } ∧
      t.ctx.valid = false)

/-- R48: a read changes nothing of the block and can be repeated with the same result; a write other than to CMD, and
every rejected one (R41), can be repeated with no further effect. -/
def Obligations.ReadsHaveNoEffectAndWritesRepeat : Prop :=
  (∀ (s : State) (a : Offset) (es : List Event), s.port.resetIn = false →
    s.port.events = .host (.read a) :: .host (.read a) :: es →
    ∃ v t, step s = .next t ∧ t.status = s.status ∧ t.regs = s.regs ∧ t.mem = s.mem ∧ t.ctx = s.ctx ∧
      t.inflight = s.inflight ∧ t.build = s.build ∧ t.port.responses = v :: s.port.responses ∧
      ∃ u, step t = .next u ∧ u.port.responses = v :: v :: s.port.responses) ∧
  (∀ (s : State) (a : Offset) (v : Word), s.mem.wf →
    a ≠ 0 ∨ (v ≠ 0x0000000F ∧ (s.busy = true ∨ s.status.fault = true)) →
    ∃ t, hostWrite a v s = .next t ∧ hostWrite a v t = .next t)

/-- R20 to R31: what a host read of each register returns, as a number; every bit outside the named fields is 0. -/
def Obligations.RegisterReadsShowTheirFields : Prop :=
  ∀ s : State,
    readWindow s 0x000 = 0 ∧
    readWindow s 0x00C = s.regs.result ∧ readWindow s 0x010 = s.regs.hDest ∧ readWindow s 0x014 = s.regs.hSender ∧
    readWindow s 0x018 = s.regs.hId ∧
    (readWindow s 0x01C).toNat = s.regs.hFlags.hopLimit.toNat + 2 ^ 8 * s.regs.hFlags.hopStart.toNat +
      2 ^ 16 * bitNat s.regs.hFlags.wantAck + 2 ^ 17 * bitNat s.regs.hFlags.viaMqtt ∧
    (readWindow s 0x020).toNat = s.regs.hRoute.channelHash.toNat + 2 ^ 8 * s.regs.hRoute.nextHop.toNat +
      2 ^ 16 * s.regs.hRoute.relayNode.toNat ∧
    (readWindow s 0x024).toNat = s.regs.pktLen.toNat ∧ (readWindow s 0x028).toNat = s.regs.nameLen.toNat ∧
    (readWindow s 0x02C).toNat = s.regs.pskLen.toNat ∧ (readWindow s 0x030).toNat = s.regs.keyLen.toNat ∧
    (readWindow s 0x034).toNat = s.regs.srcOff.toNat ∧ (readWindow s 0x038).toNat = s.regs.srcLen.toNat ∧
    (readWindow s 0x03C).toNat = s.regs.dstOff.toNat ∧ (readWindow s 0x040).toNat = s.regs.dstLen.toNat

/-- R21, R103: the fields of STATUS as a host read shows them; the reserved bits are 0. -/
def Obligations.StatusReadShowsItsFields : Prop :=
  ∀ s : State,
    (readWindow s 0x004).toNat = bitNat s.inflight.isSome + 2 * bitNat s.status.done + 4 * bitNat s.status.err +
      8 * bitNat s.status.fault + 16 * bitNat s.ctx.valid + 32 * bitNat s.status.rej +
      256 * (match s.status.errcode with
        | .none => 0 | .truncatedInput => 1 | .fieldOutOfRange => 2 | .invalidEncoding => 3 | .emptyPsk => 4
        | .unsupportedKeyLength => 5 | .lengthMismatch => 6 | .range => 7 | .noContext => 8 | .illegalCommand => 9
        | .keyContract => 10)

/-- R21: a host write to STATUS while BUSY = 0. -/
def Obligations.StatusWriteClearsWrittenOnes : Prop :=
  ∀ (s : State) (v : Word), s.busy = false →
    ∃ t, hostWrite 0x004 v s = .next t ∧
      (t.status.done = true ↔ s.status.done = true ∧ v.toNat.testBit 1 = false) ∧
      (t.status.rej = true ↔ s.status.rej = true ∧ v.toNat.testBit 5 = false) ∧
      (v.toNat.testBit 2 = true → s.status.fault = false → t.status.err = false ∧ t.status.errcode = .none) ∧
      (v.toNat.testBit 2 = false ∨ s.status.fault = true →
        t.status.err = s.status.err ∧ t.status.errcode = s.status.errcode) ∧
      t.status.fault = s.status.fault ∧ t.regs = s.regs ∧ t.mem = s.mem ∧ t.ctx = s.ctx ∧ t.inflight = s.inflight ∧
      t.build = s.build ∧ t.port = s.port

/-- R47: a read of a register shows its reserved bits 0; a write while BUSY = 0 replaces its named fields with the
bits of the value written; a write to an RO register is ignored. -/
def Obligations.RegisterWriteReadsBackItsNamedBits : Prop :=
  (∀ (s : State) (a : Offset) (mask v : Word), (a, mask) ∈ rwRegisters →
    readWindow s a &&& mask = readWindow s a ∧
    (s.busy = false → ∃ t, hostWrite a v s = .next t ∧ readWindow t a = v &&& mask ∧
      t.mem = s.mem ∧ t.status = s.status ∧ t.ctx = s.ctx ∧ t.inflight = none)) ∧
  (∀ s : State, readWindow s 0x000 = 0 ∧ readWindow s 0x004 &&& 0x00000F3F = readWindow s 0x004 ∧
    readWindow s 0x008 &&& 0x00000003 = readWindow s 0x008) ∧
  (∀ (s : State) (v : Word), s.busy = false →
    hostWrite 0x008 v s = .next s ∧ hostWrite 0x00C v s = .next s)

/-- A host write changes what is read at its own offset only; RO registers and unmapped offsets not even there. -/
def Obligations.HostWriteChangesOnlyItsOffset : Prop :=
  ∀ (s : State) (a : Offset) (v : Word), s.busy = false → a ≠ 0 →
    ∃ t, hostWrite a v s = .next t ∧
      (∀ b, b ≠ a ∨ a = 0x008 ∨ a = 0x00C ∨ ¬ MappedOffset a → readWindow t b = readWindow s b) ∧
      t.ctx = s.ctx ∧ t.inflight = none ∧ t.build = s.build ∧ t.port = s.port

/-- R49: a buffer word holds four bytes, least significant first, and a read returns them whatever BUSY is; a write while
BUSY = 0 replaces all four and no other byte. -/
def Obligations.BufferWordsAreLittleEndian : Prop :=
  ∀ (s : State) (a : Offset), a.toNat % 4 = 0 → 0x100 ≤ a.toNat → a.toNat < 0x2A0 →
    (readWindow s a).toNat = leNat (readBytes s.mem a.toNat 4) ∧
    (s.mem.wf → s.busy = false → ∀ v : Word,
      ∃ t, hostWrite a v s = .next t ∧ leNat (readBytes t.mem a.toNat 4) = v.toNat ∧ readWindow t a = v ∧
        (∀ k, k < a.toNat ∨ a.toNat + 4 ≤ k → readByte t.mem k = readByte s.mem k) ∧
        t.regs = s.regs ∧ t.status = s.status ∧ t.ctx = s.ctx)

/-- R46 (R42, R45 for which offsets are unmapped). -/
def Obligations.UnmappedOffsetsReadZeroAndIgnoreWrites : Prop :=
  ∀ (s : State) (a : Offset) (v : Word), ¬ MappedOffset a →
    readWindow s a = 0 ∧
    hostTransaction (.read a) s = .next { s with port := { s.port with responses := 0 :: s.port.responses } } ∧
    (s.busy = false → hostWrite a v s = .next s) ∧
    (s.busy = true → hostWrite a v s = .next { s with status := { s.status with rej := true } })

/-- R22: CONFIG shows the build parameters, and no step changes them. -/
def Obligations.ConfigShowsTheBuildAndNeverChanges : Prop :=
  (∀ s : State, (readWindow s 0x008).toNat =
    (match s.build.flagLayout with | .upstream => 0 | .docProse => 1) +
      2 * (match s.build.ctrPos with | .low => 0 | .high => 1)) ∧
  (∀ s t : State, step s = .next t → t.build = s.build ∧ readWindow t 0x008 = readWindow s 0x008)

/-- R108: the fault state is left only by a soft or a hard reset (the latter as the event of log entry 3). -/
def Obligations.FaultStateIsLeftOnlyByReset : Prop :=
  ∀ s t : State, s.Inv → s.status.fault = true → step s = .next t →
    t.status.fault = true ∨
    (∃ es, s.port.events = .host (.write 0 0x0000000F) :: es) ∨ (∃ es, s.port.events = .assertReset :: es)

/-- R107: a write rejected while busy does not affect the command in flight: completing after the rejection gives the
state of completing without it, with REJ set. -/
def Obligations.RejectedWriteDoesNotDisturbTheCommand : Prop :=
  ∀ (i : Instr) (s t : State), i ≠ .sreset → s.busy = true → exec i s = .next t →
    exec i s.reject = .next t.reject

/-- R125, in the model's form (log entry 2): a command in flight completes, or a reset abandons it, after finitely many
steps, whatever the host does. -/
def Obligations.CommandInFlightEventuallyEnds : Prop :=
  ∀ s : State, s.inflight.isSome = true → s.port.resetIn = false →
    ∃ k t, k ≤ s.port.events.length + 1 ∧ Sys2Proof.core.run k s = .next t ∧ State.inflight t = none

/-- R118, with the reset input as log entry 3 models it: the only step without a meaning is a host transaction while the
hard reset input is asserted. -/
def Obligations.StepIsRefusedOnlyDuringHardReset : Prop :=
  ∀ s : State,
    (∀ r, step s = .refused r ↔ r = .hostTransactionDuringReset ∧ s.port.resetIn = true ∧
      ∃ tx es, s.port.events = .host tx :: es) ∧
    (∀ r, step s ≠ .fault r)

/-- R116: after either reset every register, buffer byte and hidden state is at its reset value, CONFIG keeps its
value, and nothing is in flight. That the hard reset
takes effect at its assertion, as the event assertReset, is the model's choice (log entry 3). -/
def Obligations.BothResetsGiveTheResetValues : Prop :=
  ∀ s : State,
    let AtReset := fun t : State =>
      (∀ a : Offset, readWindow t a = if a = 0x008 then readWindow s 0x008 else 0) ∧ (∀ k, readByte t.mem k = 0) ∧
      t.ctx.valid = false ∧ t.ctx.klen = 0 ∧ (∀ b ∈ t.ctx.key.toList, b = 0) ∧ (∀ b ∈ t.ctx.n0.toList, b = 0) ∧
      t.inflight = none ∧ t.build = s.build
    (∃ t, exec .sreset s = .next t ∧ AtReset t) ∧
    (∀ es, s.port.events = .assertReset :: es → ∃ t, step s = .next t ∧ AtReset t) ∧
    (s = State.reset → AtReset s)

/-- The invariant holds at reset. -/
def Obligations.InvariantHoldsAtReset : Prop := State.reset.Inv

/-- Every step keeps the invariant. -/
def Obligations.StepKeepsInvariant : Prop :=
  ∀ s t : State, s.Inv → step s = .next t → t.Inv

/-- R54: a step that leaves a command in flight leaves every register, buffer byte and the context, and what every offset
but STATUS reads, as they were; only the completion, a soft reset or a hard reset ends it; the completion is one step
with the whole effect of the command, and a read after it sees the state that step left. The model's choice are the
completion with no event left (log entry 2) and the hard reset's event (log entry 3). -/
def Obligations.OutputsAppearOnlyAtTheCompletion : Prop :=
  (∀ s t : State, s.busy = true → step s = .next t →
    (t.inflight = s.inflight ∧ t.regs = s.regs ∧ t.mem = s.mem ∧ t.ctx = s.ctx ∧
      ∀ a : Offset, a ≠ 0x004 → readWindow t a = readWindow s a) ∨
    (t.inflight = none ∧ (s.port.events = [] ∨ ∃ e es, s.port.events = e :: es ∧
      (e = .complete ∨ e = .assertReset ∨ e = .host (.write 0 0x0000000F))))) ∧
  (∀ (s : State) (f : InFlight) (a : Offset) (es : List Event), s.inflight = some f → s.port.resetIn = false →
    s.port.events = .complete :: .host (.read a) :: es →
    ∃ t u, step s = .next t ∧ exec (decodeWord f.word) (s.withEvents (.host (.read a) :: es)) = .next t ∧
      t.inflight = none ∧ step t = .next u ∧ u.port.responses = readWindow t a :: s.port.responses)

/-- R36: the host can neither read nor write the context's key, key length and initial counter block: two machines that
differ in them alone answer every read alike, and no host write but SRESET changes them. -/
def Obligations.HostCannotReadOrWriteTheContext : Prop :=
  (∀ (s : State) (c : Context) (a : Offset), c.valid = s.ctx.valid →
    readWindow { s with ctx := c } a = readWindow s a) ∧
  (∀ (s t : State) (a : Offset) (v : Word), hostWrite a v s = .next t →
    t.ctx = s.ctx ∨ (a = 0 ∧ v = 0x0000000F ∧ t.ctx = State.reset.ctx))

/-- R115: nothing but a write to CMD moves the block out of idle. -/
def Obligations.OnlyCmdWriteLeavesIdle : Prop :=
  ∀ s t : State, s.busy = false → step s = .next t → t.busy = true →
    ∃ w es, s.port.events = .host (.write 0 w) :: es ∧ w ≠ 0x0000000F ∧ s.status.fault = false

/-! ### Header codec -/

/-- The flags byte's encoding and decoding undo each other, under both layouts: R71's own derivation from R70. -/
def Obligations.FlagsByteCodecIsBijective : Prop :=
  ∀ layout : FlagLayout,
    (∀ (hl hs : BitVec 3) (wa vm : Bool), decodeFlags layout (encodeFlags layout hl hs wa vm) =
      { hopLimit := hl.setWidth 8, hopStart := hs.setWidth 8, wantAck := wa, viaMqtt := vm }) ∧
    (∀ f : Byte, encodeFlags layout ((decodeFlags layout f).hopLimit.setWidth 3)
      ((decodeFlags layout f).hopStart.setWidth 3) (decodeFlags layout f).wantAck (decodeFlags layout f).viaMqtt = f)

/-- R72: HDR_PARSE. -/
def Obligations.HdrParseReadsTheWireHeader : Prop :=
  encode .hdrParse = 0x00000001 ∧
  ∀ s : State,
    let x := s.inputs
    let f := (readByte x.mem 0x10C).toNat
    (x.regs.pktLen.toNat < 16 → FailsWith .hdrParse s .truncatedInput) ∧
    (16 ≤ x.regs.pktLen.toNat → ∃ t, exec .hdrParse s = .next t ∧ Succeeded s t ∧
      t.regs.hDest.toNat = leNat (readBytes x.mem 0x100 4) ∧ t.regs.hSender.toNat = leNat (readBytes x.mem 0x104 4) ∧
      t.regs.hId.toNat = leNat (readBytes x.mem 0x108 4) ∧
      t.regs.hFlags.hopLimit.toNat = f % 8 ∧
      (s.build.flagLayout = .upstream → t.regs.hFlags.hopStart.toNat = f / 32 ∧
        t.regs.hFlags.wantAck = f.testBit 3 ∧ t.regs.hFlags.viaMqtt = f.testBit 4) ∧
      (s.build.flagLayout = .docProse → t.regs.hFlags.hopStart.toNat = f / 8 % 8 ∧
        t.regs.hFlags.wantAck = f.testBit 6 ∧ t.regs.hFlags.viaMqtt = f.testBit 7) ∧
      t.regs.hRoute.channelHash = readByte x.mem 0x10D ∧ t.regs.hRoute.nextHop = readByte x.mem 0x10E ∧
      t.regs.hRoute.relayNode = readByte x.mem 0x10F ∧ t.regs.result = 16 ∧
      t.regs = { s.regs with
        result := t.regs.result, hDest := t.regs.hDest, hSender := t.regs.hSender,
        hId := t.regs.hId, hFlags := t.regs.hFlags, hRoute := t.regs.hRoute } ∧
      t.mem = s.mem ∧ t.ctx = s.ctx)

/-- R73: HDR_SERIALIZE. -/
def Obligations.HdrSerializeWritesTheWireHeader : Prop :=
  encode .hdrSerialize = 0x00000002 ∧
  ∀ s : State, s.mem.wf →
    let r := s.inputs.regs
    let hl := r.hFlags.hopLimit.toNat
    let hs := r.hFlags.hopStart.toNat
    (7 < hl ∨ 7 < hs → FailsWith .hdrSerialize s .fieldOutOfRange) ∧
    (hl ≤ 7 → hs ≤ 7 → ∃ t, exec .hdrSerialize s = .next t ∧ Succeeded s t ∧
      leNat (readBytes t.mem 0x100 4) = r.hDest.toNat ∧ leNat (readBytes t.mem 0x104 4) = r.hSender.toNat ∧
      leNat (readBytes t.mem 0x108 4) = r.hId.toNat ∧
      (s.build.flagLayout = .upstream → (readByte t.mem 0x10C).toNat =
        hl + 8 * bitNat r.hFlags.wantAck + 16 * bitNat r.hFlags.viaMqtt + 32 * hs) ∧
      (s.build.flagLayout = .docProse → (readByte t.mem 0x10C).toNat =
        hl + 8 * hs + 64 * bitNat r.hFlags.wantAck + 128 * bitNat r.hFlags.viaMqtt) ∧
      readByte t.mem 0x10D = r.hRoute.channelHash ∧ readByte t.mem 0x10E = r.hRoute.nextHop ∧
      readByte t.mem 0x10F = r.hRoute.relayNode ∧ t.regs = { s.regs with result := 16 } ∧
      (∀ k, k < 0x100 ∨ 0x110 ≤ k → readByte t.mem k = readByte s.mem k) ∧ t.ctx = s.ctx)

/-- Both header round trips, under both layouts, each command succeeding: R74, which the spec marks as derived from R71 to R73. -/
def Obligations.HeaderRoundTrips : Prop :=
  (∀ s t u : State, s.mem.wf → s.regs.hFlags.hopLimit.toNat ≤ 7 → s.regs.hFlags.hopStart.toNat ≤ 7 →
    16 ≤ s.regs.pktLen.toNat → runCommand .hdrSerialize s = .next t → runCommand .hdrParse t = .next u →
    t.status.done = true ∧ u.status.done = true ∧ u.regs.hDest = s.regs.hDest ∧ u.regs.hSender = s.regs.hSender ∧ u.regs.hId = s.regs.hId ∧
      u.regs.hFlags = s.regs.hFlags ∧ u.regs.hRoute = s.regs.hRoute) ∧
  (∀ s t u : State, s.mem.wf → 16 ≤ s.regs.pktLen.toNat → runCommand .hdrParse s = .next t →
    runCommand .hdrSerialize t = .next u →
    t.status.done = true ∧ u.status.done = true ∧ readBytes u.mem 0x100 16 = readBytes s.mem 0x100 16)

/-- The frame of the header commands: HDR_PARSE stores nothing, HDR_SERIALIZE only the 16 header bytes. -/
def Obligations.HeaderCommandsFrame : Prop :=
  (∀ s t : State, exec .hdrParse s = .next t →
    t.mem = s.mem ∧ t.ctx = s.ctx ∧ t.build = s.build ∧ t.port = s.port ∧
    t.status = { s.status with done := t.status.done, err := t.status.err, errcode := t.status.errcode } ∧
    t.regs = { s.regs with
      result := t.regs.result, hDest := t.regs.hDest, hSender := t.regs.hSender,
      hId := t.regs.hId, hFlags := t.regs.hFlags, hRoute := t.regs.hRoute }) ∧
  (∀ s t : State, exec .hdrSerialize s = .next t →
    (∀ k, k < pktBase ∨ pktBase + 16 ≤ k → readByte t.mem k = readByte s.mem k) ∧
    t.ctx = s.ctx ∧ t.build = s.build ∧ t.port = s.port ∧
    t.status = { s.status with done := t.status.done, err := t.status.err, errcode := t.status.errcode } ∧
    t.regs = { s.regs with result := t.regs.result })

/-! ### Channel hash -/

/-- R75: CH_HASH; the fold is also said bit by bit, as the parity of the bytes with that bit set. -/
def Obligations.ChHashFoldsNameAndKey : Prop :=
  encode .chHash = 0x00000003 ∧
  ∀ s : State,
    let x := s.inputs
    let bytes := readBytes x.mem 0x200 x.regs.nameLen.toNat ++ readBytes x.mem 0x280 x.regs.keyLen.toNat
    (64 < x.regs.nameLen.toNat ∨ 32 < x.regs.keyLen.toNat → FailsWith .chHash s .range) ∧
    (x.regs.nameLen.toNat ≤ 64 → x.regs.keyLen.toNat ≤ 32 →
      ∃ t, exec .chHash s = .next t ∧ Succeeded s t ∧
        t.regs.result = (bytes.foldl (fun acc b => acc ^^^ b) 0#8).setWidth 32 ∧
        (∀ k, t.regs.result.getLsbD k = decide ((bytes.countP (fun b => b.getLsbD k)) % 2 = 1)) ∧
        t.regs = { s.regs with result := t.regs.result } ∧ t.mem = s.mem ∧ t.ctx = s.ctx)

/-- The hash depends only on the multiset of the bytes folded: R76, which the spec marks as derived from R75. -/
def Obligations.ChHashIsOrderIndependent : Prop :=
  ∀ s s' t t' : State,
    let bytes := fun x : Snapshot =>
      readBytes x.mem nameBase x.regs.nameLen.toNat ++ readBytes x.mem keyBase x.regs.keyLen.toNat
    s.inputs.regs.nameLen.toNat ≤ 64 → s.inputs.regs.keyLen.toNat ≤ 32 →
    s'.inputs.regs.nameLen.toNat ≤ 64 → s'.inputs.regs.keyLen.toNat ≤ 32 →
    (bytes s.inputs).Perm (bytes s'.inputs) → exec .chHash s = .next t → exec .chHash s' = .next t' →
    t.regs.result = t'.regs.result

/-- The frame of CH_HASH and of the illegal commands: no byte stored, no register but RESULT (CH_HASH alone). -/
def Obligations.ChHashAndIllegalCommandsFrame : Prop :=
  ∀ (i : Instr) (s t : State), i = .chHash ∨ i.isIllegal = true → exec i s = .next t →
    t.mem = s.mem ∧ t.ctx = s.ctx ∧ t.build = s.build ∧ t.port = s.port ∧
    t.status = { s.status with done := t.status.done, err := t.status.err, errcode := t.status.errcode } ∧
    t.regs = { s.regs with result := t.regs.result } ∧ (i.isIllegal = true → t.regs = s.regs)

/-! ### PSK key deriver -/

/-- R78: `b64decode` accepts exactly the canonical padded base64 texts, each as the byte string it encodes. -/
def Obligations.Base64DecodesExactlyTheCanonicalTexts : Prop :=
  ∀ text d : List Byte, b64decode text = some d ↔ b64encode d = text

/-- R79: PSK_DERIVE, by the length of the decoded text. -/
def Obligations.PskDeriveDerivesTheKey : Prop :=
  encode .pskDerive = 0x00000004 ∧
  ∀ s : State, s.mem.wf →
    let x := s.inputs
    let text := readBytes x.mem 0x240 x.regs.pskLen.toNat
    (64 < x.regs.pskLen.toNat → FailsWith .pskDerive s .range) ∧
    (x.regs.pskLen.toNat ≤ 64 → b64decode text = none → FailsWith .pskDerive s .invalidEncoding) ∧
    (x.regs.pskLen.toNat ≤ 64 → ∀ d, b64decode text = some d →
      (d = [] → FailsWith .pskDerive s .emptyPsk) ∧
      (d = [0x00] → DerivesKey s []) ∧
      (∀ v, d = [v] → v ≠ 0x00 →
        DerivesKey s (s.build.defaultKey.toList.take 15 ++ [s.build.defaultKey[15] + v - 1])) ∧
      (2 ≤ d.length → d.length ≤ 16 → DerivesKey s (List.replicate (16 - d.length) 0x00 ++ d)) ∧
      (17 ≤ d.length → d.length ≤ 32 → DerivesKey s (List.replicate (32 - d.length) 0x00 ++ d)) ∧
      (33 ≤ d.length → FailsWith .pskDerive s .unsupportedKeyLength))

/-- R80: the one-byte case exactly; the last clause is the consequence R80 marks as its own derivation. -/
def Obligations.OneBytePskChangesOnlyTheLastKeyByte : Prop :=
  ∀ (dk : Vector Byte 16) (v : Byte), v ≠ 0 →
    ∃ k, pskKey dk [v] = .key k ∧ k.length = 16 ∧ (∀ i, (h : i < 15) → k[i]? = some dk[i]) ∧
      (∃ b, k[15]? = some b ∧ b.toNat = (dk[15].toNat + v.toNat - 1) % 256 ∧ (dk[15] = 0x01 → b = v))

/-- The frame of PSK_DERIVE: the 32 bytes of KEY are all it can store to; KEY_LEN and RESULT all it can write. -/
def Obligations.PskDeriveFrame : Prop :=
  ∀ s t : State, exec .pskDerive s = .next t →
    (∀ k, k < keyBase ∨ keyBase + 32 ≤ k → readByte t.mem k = readByte s.mem k) ∧
    t.ctx = s.ctx ∧ t.build = s.build ∧ t.port = s.port ∧
    t.status = { s.status with done := t.status.done, err := t.status.err, errcode := t.status.errcode } ∧
    t.regs = { s.regs with result := t.regs.result, keyLen := t.regs.keyLen }

/-! ### AES counter-mode engine -/

/-- R82: the nonce as a 128-bit number, least significant byte first. -/
def Obligations.NonceIsPacketIdAndSender : Prop :=
  ∀ id sender : Word, (nonce id sender).length = 16 ∧ leNat (nonce id sender) = id.toNat + 2 ^ 64 * sender.toNat

/-- R83: the counter block under both positions. -/
def Obligations.CounterBlockCountsModulo32Bits : Prop :=
  ∀ (n0 : List Byte) (i : Nat), n0.length = 16 →
    (let cb := counterBlock .low n0 i
     cb.length = 16 ∧ leNat (cb.take 4) = (leNat (n0.take 4) + i) % 2 ^ 32 ∧ cb.drop 4 = n0.drop 4) ∧
    (let cb := counterBlock .high n0 i
     cb.length = 16 ∧ leNat (cb.drop 12) = (leNat (n0.drop 12) + i) % 2 ^ 32 ∧ cb.take 12 = n0.take 12) ∧
    counterBlock .low n0 0 = n0 ∧ counterBlock .high n0 0 = n0

/-- R89, which the spec marks as derived: under LOW, block `i` of packet `P` is block 0 of packet `P + i` of the same
sender, so packet `P'` begins inside the first `n` blocks of packet `P` whenever `(P' - P) mod 2^32` is below `n`; under
HIGH, two packets of one sender never share a block. -/
def Obligations.CounterBlocksOverlapOnlyUnderLow : Prop :=
  (∀ (p sender : Word) (i : Nat),
    counterBlock .low (nonce p sender) i = counterBlock .low (nonce (p + BitVec.ofNat 32 i) sender) 0) ∧
  (∀ (p p' sender : Word) (i j : Nat),
    counterBlock .low (nonce p sender) i = counterBlock .low (nonce p' sender) j ↔
      p + BitVec.ofNat 32 i = p' + BitVec.ofNat 32 j) ∧
  (∀ (p p' sender : Word) (n : Nat), (p' - p).toNat < n →
    ∃ i, i < n ∧ counterBlock .low (nonce p sender) i = counterBlock .low (nonce p' sender) 0) ∧
  (∀ (p p' sender : Word) (i j : Nat), i < 16 → j < 16 →
    counterBlock .high (nonce p sender) i = counterBlock .high (nonce p' sender) j → p = p' ∧ i = j)

/-- R92: `xtime` is multiplication by 2 modulo the polynomial 0x11B, and `mul` the sum of `xtime^k(a)` over the set bits
`k` of `b`. -/
def Obligations.FieldArithmeticIsModuloThePolynomial : Prop :=
  (∀ b : Byte, (xtime b).toNat = if b.toNat < 128 then 2 * b.toNat else (2 * b.toNat) ^^^ 0x11B) ∧
  (∀ a b : Byte, gmul a b =
    (List.range 8).foldl (fun acc k => if b.getLsbD k then acc ^^^ (xtime^[k] a) else acc) 0#8)

/-- R93: the table is the inverse in GF(2^8) followed by the affine map. -/
def Obligations.SboxIsTheAffineImageOfTheInverse : Prop :=
  ∀ a : Byte, ∃ b : Byte, IsGfInverse a b ∧ sbox a = sboxAffine b

/-- R94 to R97: the four steps of a round, at row `r` and column `c`. -/
def Obligations.AesRoundStepsActOnRowsAndColumns : Prop :=
  ∀ (b : List Byte) (r c : Nat), b.length = 16 → r < 4 → c < 4 →
    let at' := fun (l : List Byte) (r c : Nat) => l.getD (r + 4 * c) 0
    at' (subBytes b) r c = sbox (at' b r c) ∧
    at' (shiftRows b) r c = at' b r ((c + r) % 4) ∧
    at' (mixColumns b) 0 c = gmul (at' b 0 c) 2 ^^^ gmul (at' b 1 c) 3 ^^^ at' b 2 c ^^^ at' b 3 c ∧
    at' (mixColumns b) 1 c = at' b 0 c ^^^ gmul (at' b 1 c) 2 ^^^ gmul (at' b 2 c) 3 ^^^ at' b 3 c ∧
    at' (mixColumns b) 2 c = at' b 0 c ^^^ at' b 1 c ^^^ gmul (at' b 2 c) 2 ^^^ gmul (at' b 3 c) 3 ∧
    at' (mixColumns b) 3 c = gmul (at' b 0 c) 3 ^^^ at' b 1 c ^^^ at' b 2 c ^^^ gmul (at' b 3 c) 2 ∧
    (∀ (w : List (List Byte)) (rnd : Nat), (∀ x ∈ w, x.length = 4) → 4 * rnd + 4 ≤ w.length →
      at' (addRoundKey w rnd b) r c = at' b r c ^^^ (w.getD (4 * rnd + c) []).getD r 0)

/-- R98: key expansion. -/
def Obligations.KeyExpansionFollowsItsRecurrence : Prop :=
  (rcon 1 = 0x01 ∧ ∀ n, 1 ≤ n → n < 10 → rcon (n + 1) = xtime (rcon n)) ∧
  ∀ key : List Byte, key.length = 16 ∨ key.length = 32 →
    let nk := key.length / 4
    let w := keyExpansion key
    w.length = 4 * (nk + 7) ∧
    (∀ i, i < nk → w.getD i [] = (key.drop (4 * i)).take 4) ∧
    (∀ i, nk ≤ i → i < 4 * (nk + 7) →
      let p := w.getD (i - 1) []
      let rot := [p.getD 1 0, p.getD 2 0, p.getD 3 0, p.getD 0 0]
      let t :=
        if i % nk = 0 then List.zipWith (· ^^^ ·) (rot.map sbox) [rcon (i / nk), 0, 0, 0]
        else if nk = 8 ∧ i % nk = 4 then p.map sbox
        else p
      w.getD i [] = List.zipWith (· ^^^ ·) (w.getD (i - nk) []) t)

/-- The FIPS-197 known answers of 95_test_vectors.md (AES-1 to AES-3). -/
def Obligations.AesGivesTheKnownAnswers : Prop :=
  aes [0x2b, 0x7e, 0x15, 0x16, 0x28, 0xae, 0xd2, 0xa6, 0xab, 0xf7, 0x15, 0x88, 0x09, 0xcf, 0x4f, 0x3c]
      [0x32, 0x43, 0xf6, 0xa8, 0x88, 0x5a, 0x30, 0x8d, 0x31, 0x31, 0x98, 0xa2, 0xe0, 0x37, 0x07, 0x34] =
    [0x39, 0x25, 0x84, 0x1d, 0x02, 0xdc, 0x09, 0xfb, 0xdc, 0x11, 0x85, 0x97, 0x19, 0x6a, 0x0b, 0x32] ∧
  aes ((List.range 16).map (BitVec.ofNat 8)) ((List.range 16).map (fun i => BitVec.ofNat 8 (17 * i))) =
    [0x69, 0xc4, 0xe0, 0xd8, 0x6a, 0x7b, 0x04, 0x30, 0xd8, 0xcd, 0xb7, 0x80, 0x70, 0xb4, 0xc5, 0x5a] ∧
  aes ((List.range 32).map (BitVec.ofNat 8)) ((List.range 16).map (fun i => BitVec.ofNat 8 (17 * i))) =
    [0x8e, 0xa2, 0xb7, 0xca, 0x51, 0x67, 0x45, 0xbf, 0xea, 0xfc, 0x49, 0x90, 0x4b, 0x49, 0x60, 0x89]

/-- R85: CTR_BUILD. -/
def Obligations.CtrBuildLoadsTheContextOrFaults : Prop :=
  encode .ctrBuild = 0x00000005 ∧
  ∀ s : State,
    let x := s.inputs
    let n := x.regs.keyLen.toNat
    (n ≠ 16 → n ≠ 32 → exec .ctrBuild s = .next { s with
      status := { s.status with err := true, errcode := .keyContract, fault := true }
      ctx := { s.ctx with valid := false }
      inflight := none }) ∧
    (n = 16 ∨ n = 32 → ∃ t, exec .ctrBuild s = .next t ∧ Succeeded s t ∧
      t.ctx.valid = true ∧ t.ctx.klen.toNat = n ∧
      t.ctx.key.toList = readBytes x.mem 0x280 n ++ List.replicate (32 - n) 0#8 ∧
      leNat t.ctx.n0.toList = x.regs.hId.toNat + 2 ^ 64 * x.regs.hSender.toNat ∧
      t.regs.result.toNat = 8 * n ∧ t.regs = { s.regs with result := t.regs.result } ∧ t.mem = s.mem)

/-- R86 (R84 for the keystream): CTR_APPLY. -/
def Obligations.CtrApplyXorsTheKeystreamInPlace : Prop :=
  encode .ctrApply = 0x00000006 ∧
  ∀ s : State, s.mem.wf →
    let x := s.inputs
    let off := x.regs.srcOff.toNat
    let len := x.regs.srcLen.toNat
    (x.ctx.valid = false → FailsWith .ctrApply s .noContext) ∧
    (x.ctx.valid = true → 256 < off + len → FailsWith .ctrApply s .range) ∧
    (x.ctx.valid = true → off + len ≤ 256 → ∃ t, exec .ctrApply s = .next t ∧ Succeeded s t ∧
      (∀ j, j < len → readByte t.mem (0x100 + off + j) =
        readByte x.mem (0x100 + off + j) ^^^ specKeyByte s.build.ctrPos x.ctx j) ∧
      (∀ k, k < 0x100 + off ∨ 0x100 + off + len ≤ k → readByte t.mem k = readByte s.mem k) ∧
      t.ctx.valid = false ∧ t.regs.result.toNat = len ∧
      t.regs = { s.regs with result := t.regs.result })

/-- R87 (R84 for the keystream): CTR_APPLY_TO; every source byte is read before any destination byte is written. -/
def Obligations.CtrApplyToXorsIntoTheDestination : Prop :=
  encode .ctrApplyTo = 0x00000007 ∧
  ∀ s : State, s.mem.wf →
    let x := s.inputs
    let off := x.regs.srcOff.toNat
    let len := x.regs.srcLen.toNat
    let dst := x.regs.dstOff.toNat
    let dlen := x.regs.dstLen.toNat
    (x.ctx.valid = false → FailsWith .ctrApplyTo s .noContext) ∧
    (x.ctx.valid = true → len ≠ dlen → FailsWith .ctrApplyTo s .lengthMismatch) ∧
    (x.ctx.valid = true → len = dlen → 256 < off + len ∨ 256 < dst + dlen → FailsWith .ctrApplyTo s .range) ∧
    (x.ctx.valid = true → len = dlen → off + len ≤ 256 → dst + dlen ≤ 256 →
      ∃ t, exec .ctrApplyTo s = .next t ∧ Succeeded s t ∧
        (∀ j, j < len → readByte t.mem (0x100 + dst + j) =
          readByte x.mem (0x100 + off + j) ^^^ specKeyByte s.build.ctrPos x.ctx j) ∧
        (∀ k, k < 0x100 + dst ∨ 0x100 + dst + dlen ≤ k → readByte t.mem k = readByte s.mem k) ∧
        t.ctx.valid = false ∧ t.regs.result.toNat = len ∧
        t.regs = { s.regs with result := t.regs.result })

/-- R87: with the destination region equal to the source region, CTR_APPLY_TO is CTR_APPLY. -/
def Obligations.CtrApplyToOnTheSourceIsCtrApply : Prop :=
  ∀ s : State, s.inputs.regs.dstOff = s.inputs.regs.srcOff → s.inputs.regs.dstLen = s.inputs.regs.srcLen →
    exec .ctrApplyTo s = exec .ctrApply s

/-- The frame of the cipher commands: CTR_BUILD stores nothing; CTR_APPLY and CTR_APPLY_TO store only to the region they
name; no operand register is written. That a discarded context's bytes stay is the model's choice (log entry 13). -/
def Obligations.CipherCommandsFrame : Prop :=
  ∀ s t : State,
    let kept := t.build = s.build ∧ t.port = s.port ∧ t.status.rej = s.status.rej ∧
      t.regs = { s.regs with result := t.regs.result }
    (exec .ctrBuild s = .next t → kept ∧ t.mem = s.mem) ∧
    (exec .ctrApply s = .next t → kept ∧ t.status.fault = s.status.fault ∧
      t.ctx = { s.ctx with valid := t.ctx.valid } ∧
      ∀ k, k < pktAddr s.inputs.regs.srcOff ∨ pktAddr s.inputs.regs.srcOff + s.inputs.regs.srcLen.toNat ≤ k →
        readByte t.mem k = readByte s.mem k) ∧
    (exec .ctrApplyTo s = .next t → kept ∧ t.status.fault = s.status.fault ∧
      t.ctx = { s.ctx with valid := t.ctx.valid } ∧
      ∀ k, k < pktAddr s.inputs.regs.dstOff ∨ pktAddr s.inputs.regs.dstOff + s.inputs.regs.dstLen.toNat ≤ k →
        readByte t.mem k = readByte s.mem k)

/-- R88, which the spec marks as derived from R84 to R86: two CTR_APPLY commands over one region, each after a CTR_BUILD
from the same key, packet id and sender, leave every buffer as it was. -/
def Obligations.CipherIsItsOwnInverse : Prop :=
  ∀ s s1 s2 s3 s4 : State, s.mem.wf → s.regs.keyLen.toNat = 16 ∨ s.regs.keyLen.toNat = 32 →
    s.regs.srcOff.toNat + s.regs.srcLen.toNat ≤ 256 →
    runCommand .ctrBuild s = .next s1 → runCommand .ctrApply s1 = .next s2 →
    runCommand .ctrBuild s2 = .next s3 → runCommand .ctrApply s3 = .next s4 →
    s4.status.done = true ∧ s4.mem = s.mem

/-- R123: a context serves one region: CTR_APPLY and CTR_APPLY_TO started after a successful one fail with NO_CONTEXT. -/
def Obligations.ContextServesOneRegion : Prop :=
  ∀ (i : Instr) (s t : State), i = .ctrApply ∨ i = .ctrApplyTo → runCommand i s = .next t → t.status.err = false →
    FailsWith .ctrApply (t.start (encode .ctrApply)) .noContext ∧
    FailsWith .ctrApplyTo (t.start (encode .ctrApplyTo)) .noContext

/-! ### Control -/

/-- R101: every illegal command, at its completion. -/
def Obligations.IllegalCommandsComplete : Prop :=
  ∀ (i : Instr) (s : State), i.isIllegal = true → FailsWith i s .illegalCommand

/-- R101: an illegal word written to CMD, from the write to the completion. -/
def Obligations.IllegalWordReportsIllegalCommand : Prop :=
  ∀ (s : State) (w : Word) (es : List Event), IllegalWord w → s.port.resetIn = false →
    s.port.events = .host (.write 0 w) :: .complete :: es →
    (s.busy = false → s.status.fault = false → ∃ t u, step s = .next t ∧ t.busy = true ∧ step t = .next u ∧
      u = { s.withEvents es with
        status := { done := false, err := true, errcode := .illegalCommand, fault := false, rej := s.status.rej } }) ∧
    (s.busy = true ∨ s.status.fault = true → ∃ t, step s = .next t ∧
      t = { s.withEvents (.complete :: es) with status := { s.status with rej := true } })

/-- R100: SRESET, at the host write itself, whatever BUSY and FAULT are. -/
def Obligations.SresetResetsAtTheWrite : Prop :=
  encode .sreset = 0x0000000F ∧
  ∀ (s : State) (es : List Event), s.port.resetIn = false → s.port.events = .host (.write 0 0x0000000F) :: es →
    ∃ t, exec .sreset (s.withEvents es) = .next t ∧ step s = .next t ∧ t.inflight = none ∧
      readWindow t 0x004 = 0 ∧ (∀ a : Offset, a ≠ 0x008 → readWindow t a = 0) ∧
      readWindow t 0x008 = readWindow s 0x008 ∧ (∀ k, readByte t.mem k = 0) ∧ t.ctx = State.reset.ctx ∧
      t.build = s.build ∧ t.port = { s.port with events := es }
end

