-- ==== Sys2Proof/Laws/Memory.lean ====
section
/-! SUPPORT. The buffers: a write is read back, leaves every other byte alone, keeps the canonical form and the buffer
range; two canonical memories with the same bytes are equal. -/

namespace Sys2Proof.Machine

/-- Every listed offset lies above `a`. -/
def listedAbove (a : Nat) (m : Memory) : Prop := ∀ c ∈ m, a < c.1

theorem wf_nil : Memory.wf [] := by
  simp [Memory.wf]

theorem wf_cons {k : Nat} {v : Byte} {m : Memory} :
    Memory.wf ((k, v) :: m) ↔ listedAbove k m ∧ v ≠ 0#8 ∧ Memory.wf m := by
  simp only [Memory.wf, listedAbove, List.pairwise_cons, List.forall_mem_cons]
  tauto

theorem readByte_of_listedAbove {m : Memory} {a b : Nat} (h : listedAbove b m) (hab : a ≤ b) : readByte m a = 0#8 := by
  induction m with
  | nil => rfl
  | cons c m ih =>
    obtain ⟨k, v⟩ := c
    have hk : b < k := h (k, v) (by simp)
    have hm : listedAbove b m := fun d hd => h d (by simp [hd])
    rw [readByte, if_neg (by omega), ih hm]

theorem readByte_writeByte_other (m : Memory) {a b : Nat} (v : Byte) (h : b ≠ a) :
    readByte (writeByte m a v) b = readByte m b := by
  induction m with
  | nil => by_cases hv : v = 0#8 <;> simp [writeByte, readByte, hv, Ne.symm h]
  | cons c m ih =>
    obtain ⟨k, w⟩ := c
    unfold writeByte
    split
    · split <;> simp [readByte, Ne.symm h]
    · split
      · rename_i _ hak
        subst hak
        split <;> simp [readByte, Ne.symm h]
      · simp [readByte, ih]

theorem readByte_writeByte_same {m : Memory} (hm : m.wf) (a : Nat) (v : Byte) : readByte (writeByte m a v) a = v := by
  induction m with
  | nil => by_cases hv : v = 0#8 <;> simp [writeByte, readByte, hv]
  | cons c m ih =>
    obtain ⟨k, w⟩ := c
    obtain ⟨hab, _, hwf⟩ := wf_cons.mp hm
    unfold writeByte
    split
    · rename_i hak
      split
      · rename_i hv
        rw [hv]
        have : k ≠ a := by omega
        simp [readByte, this, readByte_of_listedAbove hab (Nat.le_of_lt hak)]
      · simp [readByte]
    · split
      · rename_i _ hak
        subst hak
        split
        · rename_i hv
          rw [hv]
          exact readByte_of_listedAbove hab le_rfl
        · simp [readByte]
      · rename_i _ hak
        simp [readByte, Ne.symm hak, ih hwf]

/-- A write lists nothing but its own offset anew. -/
theorem mem_writeByte {m : Memory} {a : Nat} {v : Byte} {c : Host.Cell} (h : c ∈ writeByte m a v) :
    c.1 = a ∨ c ∈ m := by
  induction m with
  | nil => by_cases hv : v = 0#8 <;> simp_all [writeByte]
  | cons d m ih =>
    obtain ⟨k, w⟩ := d
    unfold writeByte at h
    split at h
    · split at h
      · exact .inr h
      · rcases List.mem_cons.mp h with rfl | h
        · exact .inl rfl
        · exact .inr h
    · split at h
      · split at h
        · exact .inr (List.mem_cons_of_mem _ h)
        · rcases List.mem_cons.mp h with rfl | h
          · exact .inl rfl
          · exact .inr (List.mem_cons_of_mem _ h)
      · rcases List.mem_cons.mp h with rfl | h
        · exact .inr (List.mem_cons_self)
        · exact (ih h).imp_right (List.mem_cons_of_mem _)

theorem listedAbove_writeByte {m : Memory} {a b : Nat} (v : Byte) (h : listedAbove b m) (hba : b < a) :
    listedAbove b (writeByte m a v) := by
  intro c hc
  rcases mem_writeByte hc with hca | hcm
  · omega
  · exact h c hcm

/-- A write keeps the canonical form. -/
theorem wf_writeByte {m : Memory} (hm : m.wf) (a : Nat) (v : Byte) : (writeByte m a v).wf := by
  induction m with
  | nil => by_cases hv : v = 0#8 <;> simp [writeByte, Memory.wf, hv]
  | cons c m ih =>
    obtain ⟨k, w⟩ := c
    obtain ⟨hab, hw, hwf⟩ := wf_cons.mp hm
    unfold writeByte
    split
    · rename_i hak
      split
      · exact hm
      · rename_i hv
        refine wf_cons.mpr ⟨?_, hv, hm⟩
        simp only [listedAbove, List.forall_mem_cons]
        exact ⟨hak, fun d hd => lt_trans hak (hab d hd)⟩
    · split
      · rename_i _ hak
        subst hak
        split
        · exact hwf
        · rename_i hv
          exact wf_cons.mpr ⟨hab, hv, hwf⟩
      · exact wf_cons.mpr ⟨listedAbove_writeByte v hab (by omega), hw, ih hwf⟩

/-- A write inside the buffers lists no offset outside them. -/
theorem inBuffers_writeByte {m : Memory} (hm : m.inBuffers) {a : Nat} (v : Byte) (ha : pktBase ≤ a ∧ a < bufferEnd) :
    (writeByte m a v).inBuffers := by
  intro c hc
  rcases mem_writeByte hc with h | h
  · rw [h]; exact ha
  · exact hm c h

/-! ### Byte strings -/

theorem wf_writeBytes {m : Memory} (hm : m.wf) (a : Nat) (bs : List Byte) : (writeBytes m a bs).wf := by
  induction bs generalizing m a with
  | nil => exact hm
  | cons b bs ih => exact ih (wf_writeByte hm a b) (a + 1)

theorem inBuffers_writeBytes {m : Memory} (hm : m.inBuffers) {a : Nat} (bs : List Byte) (ha : pktBase ≤ a)
    (hb : a + bs.length ≤ bufferEnd) : (writeBytes m a bs).inBuffers := by
  induction bs generalizing m a with
  | nil => exact hm
  | cons b bs ih =>
    simp only [List.length_cons] at hb
    exact ih (inBuffers_writeByte hm b ⟨ha, by omega⟩) (by omega) (by omega)

/-- A byte string leaves every byte outside it alone. -/
theorem readByte_writeBytes_other (m : Memory) (a : Nat) (bs : List Byte) {k : Nat} (h : k < a ∨ a + bs.length ≤ k) :
    readByte (writeBytes m a bs) k = readByte m k := by
  induction bs generalizing m a with
  | nil => rfl
  | cons b bs ih =>
    simp only [List.length_cons] at h
    rw [writeBytes, ih _ _ (by omega), readByte_writeByte_other _ _ (by omega)]

/-- A byte string is read back byte by byte. -/
theorem readByte_writeBytes_same {m : Memory} (hm : m.wf) (a : Nat) (bs : List Byte) {j : Nat} (h : j < bs.length) :
    readByte (writeBytes m a bs) (a + j) = bs[j] := by
  induction bs generalizing m a j with
  | nil => simp at h
  | cons b bs ih =>
    rw [writeBytes]
    cases j with
    | zero =>
      rw [readByte_writeBytes_other _ _ _ (by omega), Nat.add_zero, readByte_writeByte_same hm]
      rfl
    | succ j =>
      have h' : j < bs.length := by simpa using h
      have := ih (wf_writeByte hm a b) (a + 1) h'
      rw [show a + (j + 1) = a + 1 + j by omega, this]
      rfl

@[simp] theorem length_readBytes (m : Memory) (a n : Nat) : (readBytes m a n).length = n := by
  simp [readBytes]

theorem getElem_readBytes (m : Memory) (a n : Nat) {j : Nat} (h : j < (readBytes m a n).length) :
    (readBytes m a n)[j] = readByte m (a + j) := by
  simp [readBytes]

theorem readBytes_succ (m : Memory) (a n : Nat) : readBytes m a (n + 1) = readByte m a :: readBytes m (a + 1) n := by
  simp only [readBytes, List.range_succ_eq_map, List.map_cons, List.map_map, Nat.add_zero]
  congr 1
  exact List.map_congr_left (fun j _ => by simp only [Function.comp_apply]; congr 1; omega)

@[simp] theorem readBytes_zero (m : Memory) (a : Nat) : readBytes m a 0 = [] := rfl

/-- A byte string is read back whole. -/
theorem readBytes_writeBytes {m : Memory} (hm : m.wf) (a : Nat) (bs : List Byte) :
    readBytes (writeBytes m a bs) a bs.length = bs := by
  apply List.ext_getElem (by simp)
  intro j h1 h2
  rw [getElem_readBytes, readByte_writeBytes_same hm a bs h2]

theorem readBytes_congr {m m' : Memory} {a n : Nat} (h : ∀ j, j < n → readByte m (a + j) = readByte m' (a + j)) :
    readBytes m a n = readBytes m' a n := by
  apply List.ext_getElem (by simp)
  intro j h1 h2
  rw [getElem_readBytes, getElem_readBytes, h j (by simpa using h1)]

/-! ### Equal bytes, equal memories -/

/-- Two canonical memories that read the same everywhere are the same list. -/
theorem memory_ext {m m' : Memory} (hm : m.wf) (hm' : m'.wf) (h : ∀ k, readByte m k = readByte m' k) : m = m' := by
  induction m generalizing m' with
  | nil =>
    cases m' with
    | nil => rfl
    | cons d m' =>
      obtain ⟨k, v⟩ := d
      obtain ⟨_, hv, _⟩ := wf_cons.mp hm'
      exact absurd (h k).symm (by simpa [readByte] using hv)
  | cons c m ih =>
    obtain ⟨k, v⟩ := c
    obtain ⟨ha, hv, hwf⟩ := wf_cons.mp hm
    cases m' with
    | nil => exact absurd (h k) (by simpa [readByte] using hv)
    | cons d m' =>
      obtain ⟨l, w⟩ := d
      obtain ⟨ha', hw, hwf'⟩ := wf_cons.mp hm'
      have hkl : k = l := by
        rcases Nat.lt_trichotomy k l with hlt | heq | hgt
        · have := h k
          simp only [readByte, if_true, if_neg (Nat.ne_of_gt hlt)] at this
          exact absurd (this.trans (readByte_of_listedAbove ha' (by omega))) hv
        · exact heq
        · have := h l
          simp only [readByte, if_true, if_neg (Nat.ne_of_gt hgt)] at this
          exact absurd (this.symm.trans (readByte_of_listedAbove ha (by omega))) hw
      subst hkl
      have hvw : v = w := by simpa [readByte] using h k
      subst hvw
      congr 1
      refine ih hwf hwf' (fun j => ?_)
      have := h j
      simp only [readByte] at this
      by_cases hj : k = j
      · subst hj
        rw [readByte_of_listedAbove ha le_rfl, readByte_of_listedAbove ha' le_rfl]
      · simpa [hj] using this

/-- Writing back what is there changes nothing. -/
theorem writeBytes_readBytes {m : Memory} (hm : m.wf) (a n : Nat) : writeBytes m a (readBytes m a n) = m := by
  refine memory_ext (wf_writeBytes hm _ _) hm (fun k => ?_)
  by_cases hk : k < a ∨ a + n ≤ k
  · exact readByte_writeBytes_other _ _ _ (by simpa using hk)
  · obtain ⟨j, rfl⟩ : ∃ j, k = a + j := ⟨k - a, by omega⟩
    have hj : j < (readBytes m a n).length := by simp; omega
    rw [readByte_writeBytes_same hm _ _ hj, getElem_readBytes]

/-- The same byte string written twice is written once. -/
theorem writeBytes_twice {m : Memory} (hm : m.wf) (a : Nat) (bs : List Byte) :
    writeBytes (writeBytes m a bs) a bs = writeBytes m a bs := by
  have := writeBytes_readBytes (wf_writeBytes hm a bs) a bs.length
  rwa [readBytes_writeBytes hm] at this

/-! ### Fixed byte strings -/

theorem toList_bytesToVector {n : Nat} {l : List Byte} (h : l.length = n) : (bytesToVector n l).toList = l := by
  subst h
  apply List.ext_getElem (by simp)
  intro j h1 h2
  simp [bytesToVector]

@[simp] theorem length_zeros (n : Nat) : (zeros n).length = n := by simp [zeros]

@[simp] theorem length_xorBytes (xs ys : List Byte) : (xorBytes xs ys).length = min xs.length ys.length := by
  simp [xorBytes]

theorem getElem_xorBytes (xs ys : List Byte) {j : Nat} (h : j < (xorBytes xs ys).length) :
    (xorBytes xs ys)[j] = xs[j]'(by simp at h; omega) ^^^ ys[j]'(by simp at h; omega) := by
  simp [xorBytes]

end Sys2Proof.Machine
end

