-- ==== Sys2Proof/Laws/Cipher.lean ====
section
/-! SUPPORT. The cipher: lengths of what its functions return, and the keystream byte by byte. -/

namespace Sys2Proof.Machine

@[simp] theorem length_subBytes (b : List Byte) : (subBytes b).length = b.length := by simp [subBytes]

@[simp] theorem length_shiftRows (b : List Byte) : (shiftRows b).length = 16 := by simp [shiftRows]

@[simp] theorem length_nonce (id sender : Word) : (nonce id sender).length = 16 := by
  simp [nonce, le32bytes]

theorem length_counterBlock (pos : CtrPos) {n0 : List Byte} (h : n0.length = 16) (i : Nat) :
    (counterBlock pos n0 i).length = 16 := by
  cases pos <;> simp [counterBlock, le32bytes, h]

theorem length_keystreamBlocks (f : Nat → List Byte) (n : Nat) :
    ((List.range n).flatMap (fun i => (List.range 16).map ((f i).getD · 0))).length = 16 * n := by
  induction n with
  | zero => rfl
  | succ n ih => rw [List.range_succ (n := n), List.flatMap_append, List.length_append, ih]; simp; omega

theorem getElem?_keystreamBlocks (f : Nat → List Byte) {n j : Nat} (h : j < 16 * n) :
    ((List.range n).flatMap (fun i => (List.range 16).map ((f i).getD · 0)))[j]? =
      some ((f (j / 16)).getD (j % 16) 0) := by
  induction n with
  | zero => omega
  | succ n ih =>
    rw [List.range_succ (n := n), List.flatMap_append]
    by_cases hj : j < 16 * n
    · rw [List.getElem?_append_left (by rwa [length_keystreamBlocks]), ih hj]
    · have hd : j / 16 = n := by omega
      have hm : j - 16 * n = j % 16 := by omega
      rw [List.getElem?_append_right (by rw [length_keystreamBlocks]; omega), length_keystreamBlocks, hm]
      simp only [List.flatMap_cons, List.flatMap_nil, List.append_nil, List.getElem?_map, hd]
      rw [List.getElem?_range (Nat.mod_lt _ (by decide))]
      rfl

@[simp] theorem length_keystream (pos : CtrPos) (c : Context) (n : Nat) : (keystream pos c n).length = n := by
  simp only [keystream, List.length_take, length_keystreamBlocks]
  omega

/-- The keystream is the sequence of the bytes `KS(j)` (R84). -/
theorem getElem_keystream (pos : CtrPos) (c : Context) (n : Nat) {j : Nat} (h : j < (keystream pos c n).length) :
    (keystream pos c n)[j] = keyByte pos c j := by
  have hj : j < n := by simpa using h
  have := getElem?_keystreamBlocks (keyBlock pos c) (n := (n + 15) / 16) (j := j) (by omega)
  simp only [keystream, List.getElem_take, keyByte]
  rw [List.getElem_eq_iff]
  exact this

@[simp] theorem length_cipherBytes (pos : CtrPos) (x : Snapshot) :
    (cipherBytes pos x).length = x.regs.srcLen.toNat := by
  simp [cipherBytes]

/-- Byte `j` of the processed region is the source byte XOR `KS(j)` (R86, R87). -/
theorem getElem_cipherBytes (pos : CtrPos) (x : Snapshot) {j : Nat} (h : j < (cipherBytes pos x).length) :
    (cipherBytes pos x)[j] = readByte x.mem (pktAddr x.regs.srcOff + j) ^^^ keyByte pos x.ctx j := by
  simp only [cipherBytes]
  rw [getElem_xorBytes, getElem_readBytes, getElem_keystream]

end Sys2Proof.Machine
end

