-- ==== Sys2Proof/Laws/State.lean ====
section
/-! SUPPORT. One lemma per field and named update, true by rfl, so that no proof unfolds a record update; and what the
views `busy`, `snapshot` and `inputs` see of an update. -/

namespace Sys2Proof.Machine.State

variable (s : State)

@[simp] theorem start_status (w : Word) : (s.start w).status = { s.status with done := false, err := false, errcode := .none } := rfl
@[simp] theorem start_regs (w : Word) : (s.start w).regs = s.regs := rfl
@[simp] theorem start_mem (w : Word) : (s.start w).mem = s.mem := rfl
@[simp] theorem start_ctx (w : Word) : (s.start w).ctx = s.ctx := rfl
@[simp] theorem start_inflight (w : Word) : (s.start w).inflight = some { word := w, snap := s.snapshot } := rfl
@[simp] theorem start_build (w : Word) : (s.start w).build = s.build := rfl
@[simp] theorem start_port (w : Word) : (s.start w).port = s.port := rfl

@[simp] theorem reject_status : (s.reject).status = { s.status with rej := true } := rfl
@[simp] theorem reject_regs : (s.reject).regs = s.regs := rfl
@[simp] theorem reject_mem : (s.reject).mem = s.mem := rfl
@[simp] theorem reject_ctx : (s.reject).ctx = s.ctx := rfl
@[simp] theorem reject_inflight : (s.reject).inflight = s.inflight := rfl
@[simp] theorem reject_build : (s.reject).build = s.build := rfl
@[simp] theorem reject_port : (s.reject).port = s.port := rfl

@[simp] theorem succeed_status (r : Word) : (s.succeed r).status = { s.status with done := true } := rfl
@[simp] theorem succeed_regs (r : Word) : (s.succeed r).regs = { s.regs with result := r } := rfl
@[simp] theorem succeed_mem (r : Word) : (s.succeed r).mem = s.mem := rfl
@[simp] theorem succeed_ctx (r : Word) : (s.succeed r).ctx = s.ctx := rfl
@[simp] theorem succeed_inflight (r : Word) : (s.succeed r).inflight = none := rfl
@[simp] theorem succeed_build (r : Word) : (s.succeed r).build = s.build := rfl
@[simp] theorem succeed_port (r : Word) : (s.succeed r).port = s.port := rfl

@[simp] theorem failWith_status (e : ErrCode) : (s.failWith e).status = { s.status with err := true, errcode := e } := rfl
@[simp] theorem failWith_regs (e : ErrCode) : (s.failWith e).regs = s.regs := rfl
@[simp] theorem failWith_mem (e : ErrCode) : (s.failWith e).mem = s.mem := rfl
@[simp] theorem failWith_ctx (e : ErrCode) : (s.failWith e).ctx = s.ctx := rfl
@[simp] theorem failWith_inflight (e : ErrCode) : (s.failWith e).inflight = none := rfl
@[simp] theorem failWith_build (e : ErrCode) : (s.failWith e).build = s.build := rfl
@[simp] theorem failWith_port (e : ErrCode) : (s.failWith e).port = s.port := rfl

@[simp] theorem faultWith_status (e : ErrCode) : (s.faultWith e).status = { s.status with err := true, errcode := e, fault := true } := rfl
@[simp] theorem faultWith_regs (e : ErrCode) : (s.faultWith e).regs = s.regs := rfl
@[simp] theorem faultWith_mem (e : ErrCode) : (s.faultWith e).mem = s.mem := rfl
@[simp] theorem faultWith_ctx (e : ErrCode) : (s.faultWith e).ctx = { s.ctx with valid := false } := rfl
@[simp] theorem faultWith_inflight (e : ErrCode) : (s.faultWith e).inflight = none := rfl
@[simp] theorem faultWith_build (e : ErrCode) : (s.faultWith e).build = s.build := rfl
@[simp] theorem faultWith_port (e : ErrCode) : (s.faultWith e).port = s.port := rfl

@[simp] theorem resetBlock_status : (s.resetBlock).status = Snapshot.reset.status := rfl
@[simp] theorem resetBlock_regs : (s.resetBlock).regs = Snapshot.reset.regs := rfl
@[simp] theorem resetBlock_mem : (s.resetBlock).mem = [] := rfl
@[simp] theorem resetBlock_ctx : (s.resetBlock).ctx = Snapshot.reset.ctx := rfl
@[simp] theorem resetBlock_inflight : (s.resetBlock).inflight = none := rfl
@[simp] theorem resetBlock_build : (s.resetBlock).build = s.build := rfl
@[simp] theorem resetBlock_port : (s.resetBlock).port = s.port := rfl

@[simp] theorem storeBytes_status (a : Nat) (bs : List Byte) : (s.storeBytes a bs).status = s.status := rfl
@[simp] theorem storeBytes_regs (a : Nat) (bs : List Byte) : (s.storeBytes a bs).regs = s.regs := rfl
@[simp] theorem storeBytes_mem (a : Nat) (bs : List Byte) : (s.storeBytes a bs).mem = writeBytes s.mem a bs := rfl
@[simp] theorem storeBytes_ctx (a : Nat) (bs : List Byte) : (s.storeBytes a bs).ctx = s.ctx := rfl
@[simp] theorem storeBytes_inflight (a : Nat) (bs : List Byte) : (s.storeBytes a bs).inflight = s.inflight := rfl
@[simp] theorem storeBytes_build (a : Nat) (bs : List Byte) : (s.storeBytes a bs).build = s.build := rfl
@[simp] theorem storeBytes_port (a : Nat) (bs : List Byte) : (s.storeBytes a bs).port = s.port := rfl

@[simp] theorem setHeader_status (d n p : Word) (f : HFlags) (r : HRoute) : (s.setHeader d n p f r).status = s.status := rfl
@[simp] theorem setHeader_regs (d n p : Word) (f : HFlags) (r : HRoute) : (s.setHeader d n p f r).regs = { s.regs with hDest := d, hSender := n, hId := p, hFlags := f, hRoute := r } := rfl
@[simp] theorem setHeader_mem (d n p : Word) (f : HFlags) (r : HRoute) : (s.setHeader d n p f r).mem = s.mem := rfl
@[simp] theorem setHeader_ctx (d n p : Word) (f : HFlags) (r : HRoute) : (s.setHeader d n p f r).ctx = s.ctx := rfl
@[simp] theorem setHeader_inflight (d n p : Word) (f : HFlags) (r : HRoute) : (s.setHeader d n p f r).inflight = s.inflight := rfl
@[simp] theorem setHeader_build (d n p : Word) (f : HFlags) (r : HRoute) : (s.setHeader d n p f r).build = s.build := rfl
@[simp] theorem setHeader_port (d n p : Word) (f : HFlags) (r : HRoute) : (s.setHeader d n p f r).port = s.port := rfl

@[simp] theorem setKeyLen_status (n : BitVec 6) : (s.setKeyLen n).status = s.status := rfl
@[simp] theorem setKeyLen_regs (n : BitVec 6) : (s.setKeyLen n).regs = { s.regs with keyLen := n } := rfl
@[simp] theorem setKeyLen_mem (n : BitVec 6) : (s.setKeyLen n).mem = s.mem := rfl
@[simp] theorem setKeyLen_ctx (n : BitVec 6) : (s.setKeyLen n).ctx = s.ctx := rfl
@[simp] theorem setKeyLen_inflight (n : BitVec 6) : (s.setKeyLen n).inflight = s.inflight := rfl
@[simp] theorem setKeyLen_build (n : BitVec 6) : (s.setKeyLen n).build = s.build := rfl
@[simp] theorem setKeyLen_port (n : BitVec 6) : (s.setKeyLen n).port = s.port := rfl

@[simp] theorem loadContext_status (k : BitVec 6) (key n0 : List Byte) : (s.loadContext k key n0).status = s.status := rfl
@[simp] theorem loadContext_regs (k : BitVec 6) (key n0 : List Byte) : (s.loadContext k key n0).regs = s.regs := rfl
@[simp] theorem loadContext_mem (k : BitVec 6) (key n0 : List Byte) : (s.loadContext k key n0).mem = s.mem := rfl
@[simp] theorem loadContext_ctx (k : BitVec 6) (key n0 : List Byte) : (s.loadContext k key n0).ctx = { valid := true, klen := k, key := bytesToVector 32 key, n0 := bytesToVector 16 n0 } := rfl
@[simp] theorem loadContext_inflight (k : BitVec 6) (key n0 : List Byte) : (s.loadContext k key n0).inflight = s.inflight := rfl
@[simp] theorem loadContext_build (k : BitVec 6) (key n0 : List Byte) : (s.loadContext k key n0).build = s.build := rfl
@[simp] theorem loadContext_port (k : BitVec 6) (key n0 : List Byte) : (s.loadContext k key n0).port = s.port := rfl

@[simp] theorem dropContext_status : (s.dropContext).status = s.status := rfl
@[simp] theorem dropContext_regs : (s.dropContext).regs = s.regs := rfl
@[simp] theorem dropContext_mem : (s.dropContext).mem = s.mem := rfl
@[simp] theorem dropContext_ctx : (s.dropContext).ctx = { s.ctx with valid := false } := rfl
@[simp] theorem dropContext_inflight : (s.dropContext).inflight = s.inflight := rfl
@[simp] theorem dropContext_build : (s.dropContext).build = s.build := rfl
@[simp] theorem dropContext_port : (s.dropContext).port = s.port := rfl

@[simp] theorem withEvents_status (es : List Event) : (s.withEvents es).status = s.status := rfl
@[simp] theorem withEvents_regs (es : List Event) : (s.withEvents es).regs = s.regs := rfl
@[simp] theorem withEvents_mem (es : List Event) : (s.withEvents es).mem = s.mem := rfl
@[simp] theorem withEvents_ctx (es : List Event) : (s.withEvents es).ctx = s.ctx := rfl
@[simp] theorem withEvents_inflight (es : List Event) : (s.withEvents es).inflight = s.inflight := rfl
@[simp] theorem withEvents_build (es : List Event) : (s.withEvents es).build = s.build := rfl
@[simp] theorem withEvents_port (es : List Event) : (s.withEvents es).port = { s.port with events := es } := rfl

@[simp] theorem setResetIn_status (l : Bool) : (s.setResetIn l).status = s.status := rfl
@[simp] theorem setResetIn_regs (l : Bool) : (s.setResetIn l).regs = s.regs := rfl
@[simp] theorem setResetIn_mem (l : Bool) : (s.setResetIn l).mem = s.mem := rfl
@[simp] theorem setResetIn_ctx (l : Bool) : (s.setResetIn l).ctx = s.ctx := rfl
@[simp] theorem setResetIn_inflight (l : Bool) : (s.setResetIn l).inflight = s.inflight := rfl
@[simp] theorem setResetIn_build (l : Bool) : (s.setResetIn l).build = s.build := rfl
@[simp] theorem setResetIn_port (l : Bool) : (s.setResetIn l).port = { s.port with resetIn := l } := rfl

@[simp] theorem respond_status (v : Word) : (s.respond v).status = s.status := rfl
@[simp] theorem respond_regs (v : Word) : (s.respond v).regs = s.regs := rfl
@[simp] theorem respond_mem (v : Word) : (s.respond v).mem = s.mem := rfl
@[simp] theorem respond_ctx (v : Word) : (s.respond v).ctx = s.ctx := rfl
@[simp] theorem respond_inflight (v : Word) : (s.respond v).inflight = s.inflight := rfl
@[simp] theorem respond_build (v : Word) : (s.respond v).build = s.build := rfl
@[simp] theorem respond_port (v : Word) : (s.respond v).port = { s.port with responses := v :: s.port.responses } := rfl

/-! ### The views -/

theorem busy_eq_false : s.busy = false ↔ s.inflight = none := by
  simp [busy]

theorem busy_eq_true : s.busy = true ↔ ∃ f, s.inflight = some f := by
  simp [busy, Option.isSome_iff_exists]

theorem inputs_of_none (h : s.inflight = none) : s.inputs = s.snapshot := by
  simp [inputs, h]

theorem inputs_of_some (f : InFlight) (h : s.inflight = some f) : s.inputs = f.snap := by
  simp [inputs, h]

@[simp] theorem snapshot_status : s.snapshot.status = s.status := rfl
@[simp] theorem snapshot_regs : s.snapshot.regs = s.regs := rfl
@[simp] theorem snapshot_mem : s.snapshot.mem = s.mem := rfl
@[simp] theorem snapshot_ctx : s.snapshot.ctx = s.ctx := rfl

@[simp] theorem start_busy (w : Word) : (s.start w).busy = true := rfl
@[simp] theorem reject_busy : s.reject.busy = s.busy := rfl
@[simp] theorem succeed_busy (r : Word) : (s.succeed r).busy = false := rfl
@[simp] theorem failWith_busy (e : ErrCode) : (s.failWith e).busy = false := rfl
@[simp] theorem faultWith_busy (e : ErrCode) : (s.faultWith e).busy = false := rfl
@[simp] theorem resetBlock_busy : s.resetBlock.busy = false := rfl
@[simp] theorem withEvents_busy (es : List Event) : (s.withEvents es).busy = s.busy := rfl
@[simp] theorem setResetIn_busy (l : Bool) : (s.setResetIn l).busy = s.busy := rfl
@[simp] theorem respond_busy (v : Word) : (s.respond v).busy = s.busy := rfl

@[simp] theorem start_inputs (w : Word) : (s.start w).inputs = s.snapshot := rfl
@[simp] theorem withEvents_inputs (es : List Event) : (s.withEvents es).inputs = s.inputs := rfl
@[simp] theorem setResetIn_inputs (l : Bool) : (s.setResetIn l).inputs = s.inputs := rfl
@[simp] theorem respond_inputs (v : Word) : (s.respond v).inputs = s.inputs := rfl
@[simp] theorem withEvents_snapshot (es : List Event) : (s.withEvents es).snapshot = s.snapshot := rfl
@[simp] theorem setResetIn_snapshot (l : Bool) : (s.setResetIn l).snapshot = s.snapshot := rfl
@[simp] theorem respond_snapshot (v : Word) : (s.respond v).snapshot = s.snapshot := rfl
@[simp] theorem resetBlock_snapshot : s.resetBlock.snapshot = Snapshot.reset := rfl

/-- While a command is in flight, a rejected write leaves what the command reads alone. -/
theorem reject_inputs (h : s.busy = true) : s.reject.inputs = s.inputs := by
  obtain ⟨f, hf⟩ := s.busy_eq_true.mp h
  simp [inputs, hf]

end Sys2Proof.Machine.State
end

