-- ==== Sys2Proof/Laws/Exec.lean ====
section
/-! SUPPORT. What a command can do: one equation per outcome of each command, and the inversion lemma `exec_cases`. -/

namespace Sys2Proof.Machine

/-! ### The outcomes of each command -/

theorem execHdrParse_error {s : State} (h : s.inputs.regs.pktLen.toNat < 16) :
    execHdrParse s = .next (s.failWith .truncatedInput) := by
  simp [execHdrParse, headerSize, h]

theorem execHdrParse_ok {s : State} (h : 16 ≤ s.inputs.regs.pktLen.toNat) :
    execHdrParse s = .next ((s.setHeader (readLe32 s.inputs.mem pktBase) (readLe32 s.inputs.mem (pktBase + 4))
      (readLe32 s.inputs.mem (pktBase + 8)) (decodeFlags s.build.flagLayout (readByte s.inputs.mem (pktBase + 12)))
      { channelHash := readByte s.inputs.mem (pktBase + 13), nextHop := readByte s.inputs.mem (pktBase + 14),
        relayNode := readByte s.inputs.mem (pktBase + 15) }).succeed 16) := by
  simp [execHdrParse, headerSize, Nat.not_lt.mpr h]

theorem execHdrSerialize_error {s : State}
    (h : 7 < s.inputs.regs.hFlags.hopLimit.toNat ∨ 7 < s.inputs.regs.hFlags.hopStart.toNat) :
    execHdrSerialize s = .next (s.failWith .fieldOutOfRange) := if_pos h

theorem execHdrSerialize_ok {s : State} (hl : s.inputs.regs.hFlags.hopLimit.toNat ≤ 7)
    (hs : s.inputs.regs.hFlags.hopStart.toNat ≤ 7) :
    execHdrSerialize s =
      .next ((s.storeBytes pktBase (wireImage s.build.flagLayout s.inputs.regs)).succeed 16) :=
  if_neg (by omega)

theorem execChHash_error {s : State} (h : 64 < s.inputs.regs.nameLen.toNat ∨ 32 < s.inputs.regs.keyLen.toNat) :
    execChHash s = .next (s.failWith .range) := if_pos h

theorem execChHash_ok {s : State} (hn : s.inputs.regs.nameLen.toNat ≤ 64) (hk : s.inputs.regs.keyLen.toNat ≤ 32) :
    execChHash s = .next (s.succeed ((xorFold (hashBytes s.inputs)).setWidth 32)) :=
  if_neg (by simp only [nameSize, keySize]; omega)

theorem execPskDerive_range {s : State} (h : 64 < s.inputs.regs.pskLen.toNat) :
    execPskDerive s = .next (s.failWith .range) := if_pos h

theorem execPskDerive_invalid {s : State} (h : s.inputs.regs.pskLen.toNat ≤ 64)
    (hd : b64decode (pskText s.inputs) = none) : execPskDerive s = .next (s.failWith .invalidEncoding) := by
  have : ¬ s.inputs.regs.pskLen.toNat > pskSize := by simp only [pskSize]; omega
  simp [execPskDerive, this, hd]

/-- PSK_DERIVE on a text that decodes: `pskKey` says what happens. -/
theorem execPskDerive_decoded {s : State} {d : List Byte} (h : s.inputs.regs.pskLen.toNat ≤ 64)
    (hd : b64decode (pskText s.inputs) = some d) :
    execPskDerive s =
      match pskKey s.build.defaultKey d with
      | .error e   => .next (s.failWith e)
      | .cleartext => .next (finishDerive s [])
      | .key k     => .next (finishDerive s k) := by
  have : ¬ s.inputs.regs.pskLen.toNat > pskSize := by simp only [pskSize]; omega
  cases hk : pskKey s.build.defaultKey d <;> simp [execPskDerive, this, hd, hk]

theorem execCtrBuild_fault {s : State} (h16 : s.inputs.regs.keyLen.toNat ≠ 16) (h32 : s.inputs.regs.keyLen.toNat ≠ 32) :
    execCtrBuild s = .next (s.faultWith .keyContract) := if_pos ⟨h16, h32⟩

theorem execCtrBuild_ok {s : State} (h : s.inputs.regs.keyLen.toNat = 16 ∨ s.inputs.regs.keyLen.toNat = 32) :
    execCtrBuild s = .next ((s.loadContext s.inputs.regs.keyLen
      (readBytes s.inputs.mem keyBase s.inputs.regs.keyLen.toNat ++ zeros (32 - s.inputs.regs.keyLen.toNat))
      (nonce s.inputs.regs.hId s.inputs.regs.hSender)).succeed (BitVec.ofNat 32 (8 * s.inputs.regs.keyLen.toNat))) :=
  if_neg (by omega)

theorem regionFits_iff (off len : BitVec 9) : regionFits off len = true ↔ off.toNat + len.toNat ≤ 256 :=
  decide_eq_true_iff

theorem regionFits_false_iff (off len : BitVec 9) : regionFits off len = false ↔ 256 < off.toNat + len.toNat :=
  decide_eq_false_iff_not.trans Nat.not_le

theorem execCtrApply_noContext {s : State} (h : s.inputs.ctx.valid = false) :
    execCtrApply s = .next (s.failWith .noContext) := if_pos h

theorem execCtrApply_range {s : State} (hv : s.inputs.ctx.valid = true)
    (h : 256 < s.inputs.regs.srcOff.toNat + s.inputs.regs.srcLen.toNat) :
    execCtrApply s = .next (s.failWith .range) := by
  simp [execCtrApply, hv, (regionFits_false_iff _ _).mpr h]

theorem execCtrApply_ok {s : State} (hv : s.inputs.ctx.valid = true)
    (h : s.inputs.regs.srcOff.toNat + s.inputs.regs.srcLen.toNat ≤ 256) :
    execCtrApply s = .next (finishApply s s.inputs.regs.srcOff (cipherBytes s.build.ctrPos s.inputs)) := by
  simp [execCtrApply, hv, (regionFits_iff _ _).mpr h]

theorem execCtrApplyTo_noContext {s : State} (h : s.inputs.ctx.valid = false) :
    execCtrApplyTo s = .next (s.failWith .noContext) := if_pos h

theorem execCtrApplyTo_mismatch {s : State} (hv : s.inputs.ctx.valid = true)
    (h : s.inputs.regs.srcLen ≠ s.inputs.regs.dstLen) : execCtrApplyTo s = .next (s.failWith .lengthMismatch) := by
  simp [execCtrApplyTo, hv, h]

theorem execCtrApplyTo_range {s : State} (hv : s.inputs.ctx.valid = true)
    (hl : s.inputs.regs.srcLen = s.inputs.regs.dstLen)
    (h : 256 < s.inputs.regs.srcOff.toNat + s.inputs.regs.srcLen.toNat ∨
      256 < s.inputs.regs.dstOff.toNat + s.inputs.regs.dstLen.toNat) :
    execCtrApplyTo s = .next (s.failWith .range) := by
  rw [← regionFits_false_iff, ← regionFits_false_iff] at h
  simp only [execCtrApplyTo, hv, hl, ne_eq, not_true, if_false, Bool.true_eq_false]
  rw [if_pos (by rwa [hl] at h)]

theorem execCtrApplyTo_ok {s : State} (hv : s.inputs.ctx.valid = true)
    (hl : s.inputs.regs.srcLen = s.inputs.regs.dstLen)
    (hs : s.inputs.regs.srcOff.toNat + s.inputs.regs.srcLen.toNat ≤ 256)
    (hd : s.inputs.regs.dstOff.toNat + s.inputs.regs.dstLen.toNat ≤ 256) :
    execCtrApplyTo s = .next (finishApply s s.inputs.regs.dstOff (cipherBytes s.build.ctrPos s.inputs)) := by
  have h1 := (regionFits_iff _ _).mpr hs
  have h2 := (regionFits_iff _ _).mpr hd
  rw [hl] at h1
  simp [execCtrApplyTo, hv, hl, h1, h2]

/-- Every illegal command raises ILLEGAL_COMMAND. -/
theorem exec_illegal {i : Instr} (h : i.isIllegal = true) (s : State) :
    exec i s = .next (s.failWith .illegalCommand) := by
  cases i <;> first | rfl | simp [Instr.isIllegal] at h

/-! ### Keys -/

/-- A derived key is 16 or 32 bytes long (R79). -/
theorem pskKey_length {dk : Vector Byte 16} {d k : List Byte} (h : pskKey dk d = .key k) :
    k.length = 16 ∨ k.length = 32 := by
  unfold pskKey at h
  simp only at h
  split at h
  · cases h
  split at h
  · split at h
    · cases h
    · injection h with h; subst h; left; simp [modifiedDefault]
  split at h
  · injection h with h; subst h; assumption
  split at h
  · injection h with h; subst h; left; simp; omega
  split at h
  · injection h with h; subst h; right; simp; omega
  · cases h

/-- The errors of the length check (R79). -/
theorem pskKey_error {dk : Vector Byte 16} {d : List Byte} {e : ErrCode} (h : pskKey dk d = .error e) :
    e = .emptyPsk ∨ e = .unsupportedKeyLength := by
  unfold pskKey at h
  simp only at h
  repeat' split at h
  all_goals first | (injection h with h; subst h; simp) | cases h

/-! ### All commands at once -/

/-- What a successful command leaves alone before it ends, and what it keeps: `s'` is the state its outputs give. -/
structure OutputsOf (s s' : State) : Prop where
  status : s'.status = s.status
  build : s'.build = s.build
  port : s'.port = s.port
  wf : s.mem.wf → s'.mem.wf
  inBuffers : s.mem.inBuffers → s'.mem.inBuffers
  ctx : s'.ctx = s.ctx ∨ s'.ctx.valid = false ∨ s'.ctx.klen = 16#6 ∨ s'.ctx.klen = 32#6

theorem outputsOf_self (s : State) : OutputsOf s s :=
  ⟨rfl, rfl, rfl, id, id, .inl rfl⟩

theorem outputsOf_storeBytes (s : State) {a : Nat} (bs : List Byte) (ha : pktBase ≤ a)
    (hb : a + bs.length ≤ bufferEnd) : OutputsOf s (s.storeBytes a bs) :=
  ⟨rfl, rfl, rfl, fun h => wf_writeBytes h a bs, fun h => inBuffers_writeBytes h bs ha hb, .inl rfl⟩

theorem length_wireImage (layout : FlagLayout) (r : Regs) : (wireImage layout r).length = 16 := rfl

theorem outputsOf_finishDerive (s : State) {k : List Byte} (hk : k.length ≤ 32) :
    OutputsOf s ((s.storeBytes keyBase (k ++ zeros (keySize - k.length))).setKeyLen (BitVec.ofNat 6 k.length)) := by
  refine ⟨rfl, rfl, rfl, fun h => wf_writeBytes h _ _, fun h => inBuffers_writeBytes h _ (by decide) ?_, .inl rfl⟩
  simp [keySize, keyBase, bufferEnd]
  omega

theorem outputsOf_finishApply (s : State) {dst : BitVec 9}
    (hd : dst.toNat + s.inputs.regs.srcLen.toNat ≤ 256) (bs : List Byte)
    (hb : bs.length = s.inputs.regs.srcLen.toNat) :
    OutputsOf s ((s.storeBytes (pktAddr dst) bs).dropContext) := by
  refine ⟨rfl, rfl, rfl, fun h => wf_writeBytes h _ _, fun h => inBuffers_writeBytes h _ ?_ ?_, .inr (.inl rfl)⟩
  · simp [pktAddr]
  · simp only [pktAddr, pktBase, bufferEnd, hb]; omega

/-- Every command answers a next state, and it is one of these: SRESET's reset, an error, CTR_BUILD's fault, or a
success after some outputs. -/
theorem exec_cases (i : Instr) (s : State) :
    (i = .sreset ∧ exec i s = .next s.resetBlock) ∨
    (∃ e, e ≠ .none ∧ e ≠ .keyContract ∧ exec i s = .next (s.failWith e)) ∨
    (i = .ctrBuild ∧ exec i s = .next (s.faultWith .keyContract)) ∨
    (∃ s' r, OutputsOf s s' ∧ exec i s = .next (s'.succeed r)) := by
  by_cases hill : i.isIllegal = true
  · exact .inr (.inl ⟨_, by decide, by decide, exec_illegal hill s⟩)
  cases i with
  | sreset => exact .inl ⟨rfl, rfl⟩
  | hdrParse =>
    rcases Nat.lt_or_ge s.inputs.regs.pktLen.toNat 16 with h | h
    · exact .inr (.inl ⟨_, by decide, by decide, execHdrParse_error h⟩)
    · refine .inr (.inr (.inr ⟨_, _, ?_, execHdrParse_ok h⟩))
      exact ⟨rfl, rfl, rfl, id, id, .inl rfl⟩
  | hdrSerialize =>
    by_cases h : 7 < s.inputs.regs.hFlags.hopLimit.toNat ∨ 7 < s.inputs.regs.hFlags.hopStart.toNat
    · exact .inr (.inl ⟨_, by decide, by decide, execHdrSerialize_error h⟩)
    · refine .inr (.inr (.inr ⟨_, _, ?_, execHdrSerialize_ok (s := s) (by omega) (by omega)⟩))
      exact outputsOf_storeBytes s _ le_rfl (by rw [length_wireImage]; decide)
  | chHash =>
    by_cases h : 64 < s.inputs.regs.nameLen.toNat ∨ 32 < s.inputs.regs.keyLen.toNat
    · exact .inr (.inl ⟨_, by decide, by decide, execChHash_error h⟩)
    · exact .inr (.inr (.inr ⟨_, _, outputsOf_self s, execChHash_ok (by omega) (by omega)⟩))
  | pskDerive =>
    rcases Nat.lt_or_ge 64 s.inputs.regs.pskLen.toNat with h | h
    · exact .inr (.inl ⟨_, by decide, by decide, execPskDerive_range h⟩)
    · rcases hd : b64decode (pskText s.inputs) with _ | d
      · exact .inr (.inl ⟨_, by decide, by decide, execPskDerive_invalid h hd⟩)
      · have heq := execPskDerive_decoded h hd
        rcases hk : pskKey s.build.defaultKey d with k | _ | e
        · rw [hk] at heq
          refine .inr (.inr (.inr ⟨_, _, outputsOf_finishDerive s (k := k) ?_, heq⟩))
          rcases pskKey_length hk with h | h <;> omega
        · rw [hk] at heq
          exact .inr (.inr (.inr ⟨_, _, outputsOf_finishDerive s (k := []) (by simp), heq⟩))
        · rw [hk] at heq
          refine .inr (.inl ⟨e, ?_, ?_, heq⟩) <;> rcases pskKey_error hk with rfl | rfl <;> decide
  | ctrBuild =>
    by_cases h : s.inputs.regs.keyLen.toNat = 16 ∨ s.inputs.regs.keyLen.toNat = 32
    · refine .inr (.inr (.inr ⟨_, _, ?_, execCtrBuild_ok h⟩))
      refine ⟨rfl, rfl, rfl, id, id, .inr (.inr ?_)⟩
      simp only [State.loadContext_ctx]
      exact h.imp (fun h => BitVec.eq_of_toNat_eq h) (fun h => BitVec.eq_of_toNat_eq h)
    · exact .inr (.inr (.inl ⟨rfl, execCtrBuild_fault (by omega) (by omega)⟩))
  | ctrApply =>
    rcases hv : s.inputs.ctx.valid with _ | _
    · exact .inr (.inl ⟨_, by decide, by decide, execCtrApply_noContext hv⟩)
    · rcases Nat.lt_or_ge 256 (s.inputs.regs.srcOff.toNat + s.inputs.regs.srcLen.toNat) with h | h
      · exact .inr (.inl ⟨_, by decide, by decide, execCtrApply_range hv h⟩)
      · exact .inr (.inr (.inr ⟨_, _, outputsOf_finishApply s h _ (length_cipherBytes _ _), execCtrApply_ok hv h⟩))
  | ctrApplyTo =>
    rcases hv : s.inputs.ctx.valid with _ | _
    · exact .inr (.inl ⟨_, by decide, by decide, execCtrApplyTo_noContext hv⟩)
    · by_cases hl : s.inputs.regs.srcLen = s.inputs.regs.dstLen
      · by_cases h : 256 < s.inputs.regs.srcOff.toNat + s.inputs.regs.srcLen.toNat ∨
          256 < s.inputs.regs.dstOff.toNat + s.inputs.regs.dstLen.toNat
        · exact .inr (.inl ⟨_, by decide, by decide, execCtrApplyTo_range hv hl h⟩)
        · refine .inr (.inr (.inr ⟨_, _, outputsOf_finishApply s (dst := s.inputs.regs.dstOff) ?_ _ (length_cipherBytes _ _),
            execCtrApplyTo_ok hv hl (by omega) (by omega)⟩))
          rw [hl]; omega
      · exact .inr (.inl ⟨_, by decide, by decide, execCtrApplyTo_mismatch hv hl⟩)
  | _ => exact absurd rfl hill

end Sys2Proof.Machine
end

