-- ==== Sys2Proof/Laws/Numbers.lean ====
section
/-! SUPPORT. Words, their four bytes and the numbers they stand for. -/

namespace Sys2Proof.Machine

@[simp] theorem length_le32bytes (v : Word) : (le32bytes v).length = 4 := rfl

theorem le32_getLsbD (b0 b1 b2 b3 : Byte) (k : Nat) :
    (le32 b0 b1 b2 b3).getLsbD k =
      if k < 8 then b0.getLsbD k else if k < 16 then b1.getLsbD (k - 8)
      else if k < 24 then b2.getLsbD (k - 16) else b3.getLsbD (k - 24) := by
  simp only [le32, BitVec.getLsbD_append]
  split
  · rfl
  · split
    · rw [if_pos (by omega)]
    · split
      · rw [if_neg (by omega), if_pos (by omega)]
        congr 1
      · rw [if_neg (by omega), if_neg (by omega)]
        congr 1

/-- The four bytes of a word put together again. -/
theorem le32_of_le32bytes (v : Word) :
    le32 (v.extractLsb' 0 8) (v.extractLsb' 8 8) (v.extractLsb' 16 8) (v.extractLsb' 24 8) = v := by
  apply BitVec.eq_of_getLsbD_eq
  intro k hk
  rw [le32_getLsbD]
  simp only [BitVec.getLsbD_extractLsb']
  split
  · rename_i h; simp [h]
  · split
    · rw [show 8 + (k - 8) = k by omega, show decide (k - 8 < 8) = true by simp; omega, Bool.true_and]
    · split
      · rw [show 16 + (k - 16) = k by omega, show decide (k - 16 < 8) = true by simp; omega, Bool.true_and]
      · rw [show 24 + (k - 24) = k by omega, show decide (k - 24 < 8) = true by simp; omega, Bool.true_and]

theorem le32_toNat (b0 b1 b2 b3 : Byte) :
    (le32 b0 b1 b2 b3).toNat = b0.toNat + 256 * (b1.toNat + 256 * (b2.toNat + 256 * b3.toNat)) := by
  simp only [le32, BitVec.toNat_append]
  rw [← Nat.shiftLeft_add_eq_or_of_lt b0.isLt, ← Nat.shiftLeft_add_eq_or_of_lt b1.isLt,
    ← Nat.shiftLeft_add_eq_or_of_lt b2.isLt]
  simp only [Nat.shiftLeft_eq]
  omega

/-- The bytes of a word, as the bytes of the word made of four bytes. -/
theorem le32bytes_of_le32 (b0 b1 b2 b3 : Byte) : le32bytes (le32 b0 b1 b2 b3) = [b0, b1, b2, b3] := by
  have h0 := b0.isLt; have h1 := b1.isLt; have h2 := b2.isLt; have h3 := b3.isLt
  simp only [le32bytes, List.cons.injEq, and_true]
  refine ⟨?_, ?_, ?_, ?_⟩ <;> apply BitVec.eq_of_toNat_eq <;>
    simp only [BitVec.extractLsb'_toNat, le32_toNat, Nat.shiftRight_eq_div_pow] <;> omega

@[simp] theorem leNat_nil : leNat [] = 0 := rfl

@[simp] theorem leNat_cons (b : Byte) (bs : List Byte) : leNat (b :: bs) = b.toNat + 256 * leNat bs := rfl

theorem leNat_le32bytes (v : Word) : leNat (le32bytes v) = v.toNat := by
  have h := congrArg BitVec.toNat (le32_of_le32bytes v)
  rw [le32_toNat] at h
  simpa [le32bytes] using h

theorem leNat_append (xs ys : List Byte) : leNat (xs ++ ys) = leNat xs + 256 ^ xs.length * leNat ys := by
  induction xs with
  | nil => simp
  | cons x xs ih => simp only [List.cons_append, leNat_cons, ih, List.length_cons, pow_succ]; ring

theorem leNat_zeros (n : Nat) : leNat (zeros n) = 0 := by
  induction n with
  | zero => rfl
  | succ n ih => simpa [zeros, List.replicate_succ] using ih

/-- A word read from the buffers is the number of its four bytes. -/
theorem readLe32_toNat (m : Memory) (a : Nat) : (readLe32 m a).toNat = leNat (readBytes m a 4) := by
  simp [readLe32, le32_toNat, readBytes, List.range_succ]

/-! ### Flags as bits and numbers -/

theorem bitNat_le (b : Bool) : bitNat b ≤ 1 := by
  cases b <;> decide

/-- A flag at bit `i` is that bit and no other. -/
theorem flagBit_getLsbD (b : Bool) {i : Nat} (hi : i < 32) (k : Nat) :
    (flagBit b i).getLsbD k = (b && decide (k = i)) := by
  cases b
  · simp [flagBit]
  · simp only [flagBit, if_true, BitVec.getLsbD_shiftLeft, BitVec.getLsbD_one, Bool.true_and]
    by_cases hk : k = i
    · subst hk; simp [hi]
    · have : k - i = 0 → k < i := by omega
      simp only [hk, decide_false]
      by_cases hlt : k < i
      · simp [hlt]
      · simp [show ¬ k - i = 0 by omega]

theorem flagBit_toNat (b : Bool) {i : Nat} (hi : i < 32) : (flagBit b i).toNat = 2 ^ i * bitNat b := by
  cases b
  · simp [flagBit, bitNat]
  · simp only [flagBit, bitNat, if_true, BitVec.toNat_shiftLeft, BitVec.toNat_ofNat, Nat.shiftLeft_eq,
      Nat.mul_one]
    rw [Nat.mod_eq_of_lt (a := 1) (by decide), Nat.one_mul]
    exact Nat.mod_eq_of_lt (Nat.pow_lt_pow_right (by decide) hi)

/-- Fields that do not overlap add up. -/
theorem or_eq_add {a b : Nat} (i : Nat) (h : a < 2 ^ i) : a ||| (2 ^ i * b) = a + 2 ^ i * b := by
  rw [Nat.or_comm, Nat.mul_comm, ← Nat.shiftLeft_eq, ← Nat.shiftLeft_add_eq_or_of_lt h]
  omega

end Sys2Proof.Machine
end

