-- ==== Sys2Proof/Laws/PerInstr.lean ====
section
/-! SUPPORT. The per-instruction family RoundTrip: a well-formed command decodes from its own word. -/

namespace Sys2Proof.Laws.RoundTrip

/-- The word of a well-formed command decodes to it. -/
def Statement (i : Instr) : Prop := i.WellFormed → decodeWord (encode i) = i

theorem hdrParse : Statement .hdrParse := fun _ => rfl
theorem hdrSerialize : Statement .hdrSerialize := fun _ => rfl
theorem chHash : Statement .chHash := fun _ => rfl
theorem pskDerive : Statement .pskDerive := fun _ => rfl
theorem ctrBuild : Statement .ctrBuild := fun _ => rfl
theorem ctrApply : Statement .ctrApply := fun _ => rfl
theorem ctrApplyTo : Statement .ctrApplyTo := fun _ => rfl
theorem sreset : Statement .sreset := fun _ => rfl
theorem illegal0 : Statement .illegal0 := fun _ => rfl
theorem illegal8 : Statement .illegal8 := fun _ => rfl
theorem illegal9 : Statement .illegal9 := fun _ => rfl
theorem illegalA : Statement .illegalA := fun _ => rfl
theorem illegalB : Statement .illegalB := fun _ => rfl
theorem illegalC : Statement .illegalC := fun _ => rfl
theorem illegalD : Statement .illegalD := fun _ => rfl
theorem illegalE : Statement .illegalE := fun _ => rfl

/-- The fields of a word put together from its fields. -/
theorem rsvdField_append (rsvd : BitVec 28) (op : BitVec 4) : rsvdField (rsvd ++ op) = rsvd := by
  apply BitVec.eq_of_getLsbD_eq
  intro k hk
  simp only [rsvdField, BitVec.getLsbD_extractLsb', BitVec.getLsbD_append]
  simp [hk]

theorem opField_append (rsvd : BitVec 28) (op : BitVec 4) : opField (rsvd ++ op) = op := by
  apply BitVec.eq_of_getLsbD_eq
  intro k hk
  simp only [opField, BitVec.getLsbD_extractLsb', BitVec.getLsbD_append]
  simp [hk]

theorem illegalRsvd (rsvd : BitVec 28) (op : BitVec 4) : Statement (.illegalRsvd rsvd op) := by
  intro h
  have hr : rsvd ≠ 0#28 := by simpa [Instr.WellFormed, Instr.wf] using h
  simp [encode, decodeWord, rsvdField_append, opField_append, hr]

end Sys2Proof.Laws.RoundTrip
end

