-- ==== Sys2Proof/Laws/Port.lean ====
section
/-! SUPPORT. The register window and the host's writes: what an offset names, and every outcome of a host write. -/

namespace Sys2Proof.Machine

/-! ### The register map -/

theorem align_iff (a : Offset) : a.extractLsb' 0 2 = 0#2 ↔ a.toNat % 4 = 0 := by
  rw [← BitVec.toNat_inj]
  simp [BitVec.extractLsb'_toNat]

theorem targetOf_misaligned {a : Offset} (h : a.toNat % 4 ≠ 0) : targetOf a = .unmapped :=
  if_neg (fun h' => h ((align_iff a).mp h'))

/-- A buffer word is named by its own offset. -/
theorem targetOf_buffer {a : Offset} (h4 : a.toNat % 4 = 0) (hl : 0x100 ≤ a.toNat) (hu : a.toNat < 0x2A0) :
    targetOf a = .buffer a.toNat := by
  rw [targetOf, if_pos ((align_iff a).mpr h4)]
  split <;> first | omega | skip
  rw [if_pos (by simpa [pktBase, bufferEnd] using ⟨hl, hu⟩)]

/-- The inverse of the register map. -/
theorem targetOf_eq_buffer {a : Offset} {n : Nat} (h : targetOf a = .buffer n) :
    n = a.toNat ∧ a.toNat % 4 = 0 ∧ 0x100 ≤ n ∧ n < 0x2A0 := by
  by_cases h4 : a.toNat % 4 = 0
  · rw [targetOf, if_pos ((align_iff a).mpr h4)] at h
    split at h <;> first | cases h | skip
    split at h
    · rename_i hr
      injection h with h
      subst h
      exact ⟨rfl, h4, hr.1, hr.2⟩
    · cases h
  · rw [targetOf_misaligned h4] at h
    cases h

theorem targetOf_zero : targetOf 0 = .cmd := by decide

theorem targetOf_eq_cmd {a : Offset} (h : targetOf a = .cmd) : a = 0 := by
  by_cases h4 : a.toNat % 4 = 0
  · rw [targetOf, if_pos ((align_iff a).mpr h4)] at h
    split at h <;> first | cases h | skip
    · rename_i h0
      exact BitVec.eq_of_toNat_eq h0
    · split at h <;> cases h
  · rw [targetOf_misaligned h4] at h
    cases h

/-- The offset of a mapped target. -/
def mappedAt : Target → Nat
  | .cmd => 0x000
  | .status => 0x004
  | .config => 0x008
  | .result => 0x00C
  | .hDest => 0x010
  | .hSender => 0x014
  | .hId => 0x018
  | .hFlags => 0x01C
  | .hRoute => 0x020
  | .pktLen => 0x024
  | .nameLen => 0x028
  | .pskLen => 0x02C
  | .keyLen => 0x030
  | .srcOff => 0x034
  | .srcLen => 0x038
  | .dstOff => 0x03C
  | .dstLen => 0x040
  | .buffer n => n
  | .unmapped => 0

theorem mappedAt_targetOf {a : Offset} (h : targetOf a ≠ .unmapped) : mappedAt (targetOf a) = a.toNat := by
  by_cases ha : a.toNat % 4 = 0
  · rw [targetOf, if_pos ((align_iff a).mpr ha)] at h ⊢
    split <;> first | (rename_i h0; exact h0.symm) | skip
    rename_i hn
    split
    · rfl
    · rename_i hr
      exact absurd (by simpa using h) hr
  · exact absurd (targetOf_misaligned ha) h

/-- Two offsets that name the same thing are the same offset, unless both are unmapped. -/
theorem targetOf_inj {a b : Offset} (h : targetOf a = targetOf b) (hm : targetOf a ≠ .unmapped) : a = b := by
  apply BitVec.eq_of_toNat_eq
  rw [← mappedAt_targetOf hm, h, mappedAt_targetOf (h ▸ hm)]

/-! ### Host writes -/

theorem decodeWord_sresetWord : decodeWord sresetWord = .sreset := rfl

theorem writeCmd_sreset (s : State) : writeCmd sresetWord s = .next s.resetBlock := rfl

theorem writeCmd_rejected {w : Word} {s : State} (hw : w ≠ sresetWord) (h : s.busy = true ∨ s.status.fault = true) :
    writeCmd w s = .next s.reject := by
  rcases h with h | h
  · simp [writeCmd, hw, h]
  · simp [writeCmd, hw, h]

theorem writeCmd_started {w : Word} {s : State} (hw : w ≠ sresetWord) (hb : s.busy = false)
    (hf : s.status.fault = false) : writeCmd w s = .next (s.start w) := by
  simp [writeCmd, hw, hb, hf]

theorem hostWrite_cmd (w : Word) (s : State) : hostWrite 0 w s = writeCmd w s := rfl

theorem hostWrite_busy {a : Offset} {s : State} (v : Word) (ha : a ≠ 0) (hb : s.busy = true) :
    hostWrite a v s = .next s.reject := by
  rw [hostWrite]
  split
  · rename_i h
    exact absurd (targetOf_eq_cmd h) ha
  · rw [if_pos hb]

theorem hostWrite_idle {a : Offset} {s : State} (v : Word) (ha : a ≠ 0) (hb : s.busy = false) :
    hostWrite a v s = .next (writeIdle s v (targetOf a)) := by
  rw [hostWrite]
  split
  · rename_i h
    exact absurd (targetOf_eq_cmd h) ha
  · rw [if_neg (by simp [hb])]

/-- Every host write answers a next state: SRESET's reset, a rejection, a start, or a write to a register or buffer of
the idle block. -/
theorem hostWrite_cases (a : Offset) (v : Word) (s : State) :
    (a = 0 ∧ v = sresetWord ∧ hostWrite a v s = .next s.resetBlock) ∨
    ((s.busy = true ∨ s.status.fault = true ∧ a = 0) ∧ ¬ (a = 0 ∧ v = sresetWord) ∧
      hostWrite a v s = .next s.reject) ∨
    (a = 0 ∧ v ≠ sresetWord ∧ s.busy = false ∧ s.status.fault = false ∧ hostWrite a v s = .next (s.start v)) ∨
    (a ≠ 0 ∧ s.busy = false ∧ hostWrite a v s = .next (writeIdle s v (targetOf a))) := by
  by_cases ha : a = 0
  · subst ha
    rw [hostWrite_cmd]
    by_cases hv : v = sresetWord
    · subst hv
      exact .inl ⟨rfl, rfl, writeCmd_sreset s⟩
    · rcases hb : s.busy with _ | _
      · rcases hf : s.status.fault with _ | _
        · exact .inr (.inr (.inl ⟨rfl, hv, rfl, rfl, writeCmd_started hv hb hf⟩))
        · exact .inr (.inl ⟨.inr ⟨rfl, rfl⟩, by simp [hv], writeCmd_rejected hv (.inr hf)⟩)
      · exact .inr (.inl ⟨.inl rfl, by simp [hv], writeCmd_rejected hv (.inl hb)⟩)
  · rcases hb : s.busy with _ | _
    · exact .inr (.inr (.inr ⟨ha, rfl, hostWrite_idle v ha hb⟩))
    · exact .inr (.inl ⟨.inl rfl, fun h => ha h.1, hostWrite_busy v ha hb⟩)

/-! ### Writes to the idle block -/

@[simp] theorem writeIdle_ctx (s : State) (v : Word) (t : Target) : (writeIdle s v t).ctx = s.ctx := by
  cases t <;> rfl

@[simp] theorem writeIdle_inflight (s : State) (v : Word) (t : Target) : (writeIdle s v t).inflight = s.inflight := by
  cases t <;> rfl

@[simp] theorem writeIdle_build (s : State) (v : Word) (t : Target) : (writeIdle s v t).build = s.build := by
  cases t <;> rfl

@[simp] theorem writeIdle_port (s : State) (v : Word) (t : Target) : (writeIdle s v t).port = s.port := by
  cases t <;> rfl

@[simp] theorem writeIdle_busy (s : State) (v : Word) (t : Target) : (writeIdle s v t).busy = s.busy := by
  cases t <;> rfl

theorem writeIdle_status (s : State) (v : Word) (t : Target) :
    (writeIdle s v t).status = if t = .status then clearStatus s.status v else s.status := by
  cases t <;> rfl

/-- Only a buffer target stores bytes. -/
theorem writeIdle_mem (s : State) (v : Word) (t : Target) :
    (∃ n, t = .buffer n ∧ (writeIdle s v t).mem = writeBytes s.mem n (le32bytes v)) ∨ (writeIdle s v t).mem = s.mem := by
  cases t
  case buffer n => exact .inl ⟨n, rfl, rfl⟩
  all_goals exact .inr rfl

/-- A write to a target stores inside the buffers and keeps the canonical form. -/
theorem writeIdle_wf {s : State} (h : s.mem.wf) (v : Word) (t : Target) : (writeIdle s v t).mem.wf := by
  rcases writeIdle_mem s v t with ⟨n, _, h'⟩ | h'
  · rw [h']; exact wf_writeBytes h _ _
  · rw [h']; exact h

theorem writeIdle_inBuffers {s : State} (h : s.mem.inBuffers) (v : Word) (a : Offset) :
    (writeIdle s v (targetOf a)).mem.inBuffers := by
  rcases writeIdle_mem s v (targetOf a) with ⟨n, ht, h'⟩ | h'
  · obtain ⟨_, h4, hl, hu⟩ := targetOf_eq_buffer ht
    rw [h']
    refine inBuffers_writeBytes h _ (by simpa [pktBase] using hl) ?_
    simp only [le32bytes, List.length_cons, List.length_nil, bufferEnd]
    omega
  · rw [h']; exact h

end Sys2Proof.Machine
end

