-- ==== Sys2Proof/Laws/Step.lean ====
section
/-! SUPPORT. What a step can do: the equations of `step` by what comes next, and the inversion lemma `step_cases`. -/

namespace Sys2Proof.Machine

theorem step_nil {s : State} (h : s.port.events = []) : step s = completion s := by
  simp [step, advance, h]

theorem step_cons {s : State} {e : Event} {es : List Event} (h : s.port.events = e :: es) :
    step s = handle e (s.withEvents es) := by
  simp [step, advance, h]

theorem step_host {s : State} {t : HostTxn} {es : List Event} (h : s.port.events = .host t :: es)
    (hr : s.port.resetIn = false) : step s = hostTransaction t (s.withEvents es) := by
  rw [step_cons h, handle, if_neg (by simp [hr])]

theorem step_complete {s : State} {es : List Event} (h : s.port.events = .complete :: es) :
    step s = completion (s.withEvents es) := step_cons h

theorem completion_none {s : State} (h : s.inflight = none) : completion s = .next s := by
  simp [completion, h]

theorem completion_some {s : State} {f : InFlight} (h : s.inflight = some f) :
    completion s = exec (decodeWord f.word) s := by
  simp [completion, h]

/-- Every step that answers a next state is one of these: a completion with nothing left outside or with its turn next,
a read, a write, or an edge of the hard reset input. -/
theorem step_cases {s t : State} (h : step s = .next t) :
    (s.port.events = [] ∧ completion s = .next t) ∨
    ∃ es, (s.port.events = .complete :: es ∧ completion (s.withEvents es) = .next t) ∨
      (∃ a, s.port.events = .host (.read a) :: es ∧ s.port.resetIn = false ∧
        t = (s.withEvents es).respond (readWindow (s.withEvents es) a)) ∨
      (∃ a v, s.port.events = .host (.write a v) :: es ∧ s.port.resetIn = false ∧
        hostWrite a v (s.withEvents es) = .next t) ∨
      (s.port.events = .assertReset :: es ∧ t = (s.withEvents es).resetBlock.setResetIn true) ∨
      (s.port.events = .releaseReset :: es ∧ t = (s.withEvents es).setResetIn false) := by
  rcases he : s.port.events with _ | ⟨e, es⟩
  · exact .inl ⟨rfl, by rwa [step_nil he] at h⟩
  · refine .inr ⟨es, ?_⟩
    rw [step_cons he] at h
    cases e with
    | complete => exact .inl ⟨rfl, h⟩
    | assertReset => injection h with h; exact .inr (.inr (.inr (.inl ⟨rfl, h.symm⟩)))
    | releaseReset => injection h with h; exact .inr (.inr (.inr (.inr ⟨rfl, h.symm⟩)))
    | host tx =>
      rcases hr : s.port.resetIn with _ | _
      · rw [handle, if_neg (by simp [hr])] at h
        cases tx with
        | read a => injection h with h; exact .inr (.inl ⟨a, rfl, rfl, h.symm⟩)
        | write a v => exact .inr (.inr (.inl ⟨a, v, rfl, rfl, h⟩))
      · rw [handle, if_pos (by simp [hr])] at h
        cases h

theorem coreRun_succ (M : Host.Core) {s t : M.State} (k : Nat) (h : M.step s = .next t) :
    M.run (k + 1) s = M.run k t := by
  rw [Host.Core.run, h]

/-- A run of `k + 1` steps is a step and a run of `k`. -/
theorem run_succ {s t : State} (k : Nat) (h : step s = .next t) :
    Sys2Proof.core.run (k + 1) s = Sys2Proof.core.run k t :=
  coreRun_succ Sys2Proof.core k h

theorem run_zero (s : State) : Sys2Proof.core.run 0 s = .next s := rfl

/-- What a completion can be: nothing, or the command in flight. -/
theorem completion_cases {s t : State} (h : completion s = .next t) :
    (s.inflight = none ∧ t = s) ∨ ∃ f, s.inflight = some f ∧ exec (decodeWord f.word) s = .next t := by
  rcases hi : s.inflight with _ | f
  · rw [completion_none hi] at h
    injection h with h
    exact .inl ⟨rfl, h.symm⟩
  · rw [completion_some hi] at h
    exact .inr ⟨f, rfl, h⟩

end Sys2Proof.Machine
end

