-- ==== Sys2Proof/Tests/Slice0.lean ====
section
/-! SUPPORT. The model's own tests: decoding of words written out from the spec's encoding, the spec's vectors
(95_test_vectors.md) one command each, and for every obligation with hypotheses a witness that meets them. -/

namespace Sys2Proof.Tests

set_option Elab.async false

open Sys2Proof Sys2Proof.Machine

/-! ### Well-formedness -/

/-- The one ill-formed kind of term: a reserved-bit word with no reserved bit set. -/
theorem test_wf_refuses_illegalRsvd_zero : ¬ (Instr.illegalRsvd 0 0x5).WellFormed := by decide

theorem test_wf_accepts_illegalRsvd_bounds :
    (Instr.illegalRsvd 1 0xF).WellFormed ∧ (Instr.illegalRsvd 0xFFFFFFF 0).WellFormed := by decide

/-! ### Decoding, from R61 and R62: the word's four bytes, bits [7:0] first, each written out in bits -/

theorem test_decode_hdrParse : decode [0b00000001, 0b00000000, 0b00000000, 0b00000000] = .ok (.hdrParse, []) := rfl
theorem test_decode_hdrSerialize :
    decode [0b00000010, 0b00000000, 0b00000000, 0b00000000] = .ok (.hdrSerialize, []) := rfl
theorem test_decode_chHash : decode [0b00000011, 0b00000000, 0b00000000, 0b00000000] = .ok (.chHash, []) := rfl
theorem test_decode_pskDerive : decode [0b00000100, 0b00000000, 0b00000000, 0b00000000] = .ok (.pskDerive, []) := rfl
theorem test_decode_ctrBuild : decode [0b00000101, 0b00000000, 0b00000000, 0b00000000] = .ok (.ctrBuild, []) := rfl
theorem test_decode_ctrApply : decode [0b00000110, 0b00000000, 0b00000000, 0b00000000] = .ok (.ctrApply, []) := rfl
theorem test_decode_ctrApplyTo : decode [0b00000111, 0b00000000, 0b00000000, 0b00000000] = .ok (.ctrApplyTo, []) := rfl
theorem test_decode_sreset : decode [0b00001111, 0b00000000, 0b00000000, 0b00000000] = .ok (.sreset, []) := rfl
theorem test_decode_illegal0 : decode [0b00000000, 0b00000000, 0b00000000, 0b00000000] = .ok (.illegal0, []) := rfl
theorem test_decode_illegal8 : decode [0b00001000, 0b00000000, 0b00000000, 0b00000000] = .ok (.illegal8, []) := rfl
theorem test_decode_illegal9 : decode [0b00001001, 0b00000000, 0b00000000, 0b00000000] = .ok (.illegal9, []) := rfl
theorem test_decode_illegalA : decode [0b00001010, 0b00000000, 0b00000000, 0b00000000] = .ok (.illegalA, []) := rfl
theorem test_decode_illegalB : decode [0b00001011, 0b00000000, 0b00000000, 0b00000000] = .ok (.illegalB, []) := rfl
theorem test_decode_illegalC : decode [0b00001100, 0b00000000, 0b00000000, 0b00000000] = .ok (.illegalC, []) := rfl
theorem test_decode_illegalD : decode [0b00001101, 0b00000000, 0b00000000, 0b00000000] = .ok (.illegalD, []) := rfl
theorem test_decode_illegalE : decode [0b00001110, 0b00000000, 0b00000000, 0b00000000] = .ok (.illegalE, []) := rfl

/-- ER-3's word 0x0000001F, and a word with only bit 31 set. -/
theorem test_decode_illegalRsvd :
    decode [0b00011111, 0b00000000, 0b00000000, 0b00000000] = .ok (.illegalRsvd 0x0000001 0xF, []) ∧
    decode [0b00000001, 0b00000000, 0b00000000, 0b10000000, 0xAA] = .ok (.illegalRsvd 0x8000000 0x1, [0xAA]) :=
  ⟨rfl, rfl⟩

theorem test_decode_refuses_short_word : decode [0x01, 0x00, 0x00] = .error .truncatedWord := rfl

theorem test_decodeTableWord :
    decodeTableWord 32 0x00000007 = some .ctrApplyTo ∧ decodeTableWord 32 0x80000001 = some (.illegalRsvd 0x8000000 1) ∧
    decodeTableWord 40 0x00000007 = none := ⟨rfl, rfl, rfl⟩

/-! ### Small states -/

/-- The reset state with buffers and registers set. -/
def machine (m : Memory) (f : Regs → Regs) : State := { State.reset with mem := m, regs := f State.reset.regs }

/-- The same state of a block of the other build. -/
def otherBuild (s : State) : State := { s with build := { s.build with flagLayout := .docProse, ctrPos := .high } }

/-- The state after a command run from its start to its completion. -/
def after (i : Instr) (s : State) : Option State :=
  match runCommand i s with
  | .next t => some t
  | _       => none

/-- The state after one step. -/
def afterStep (s : State) : Option State :=
  match step s with
  | .next t => some t
  | _       => none

/-- What the host reads at some offsets. -/
def reads (offsets : List Offset) (s : State) : List Word := offsets.map (readWindow s)

/-- The packet of program P1 with the payload `hello` in clear. -/
def packet : List Byte :=
  [0xff, 0xff, 0xff, 0xff, 0x78, 0x56, 0x34, 0x12, 0xef, 0xbe, 0xad, 0xde, 0x63, 0x08, 0x00, 0x00,
   0x68, 0x65, 0x6c, 0x6c, 0x6f]

def defaultKeyBytes : List Byte := Build.specValues.defaultKey.toList

/-- The packet in PKT, PKT_LEN = `n`. -/
def received (n : BitVec 9) : State := machine (writeBytes [] 0x100 packet) (fun r => { r with pktLen := n })

/-- The registers of HC-3, `flags` in H_FLAGS. -/
def toSend (flags : Word) : State :=
  machine [] (fun r => { r with
    hDest := 0xFFFFFFFF, hSender := 0x12345678, hId := 0xDEADBEEF, hFlags := hFlagsOf flags, hRoute := hRouteOf 0x00000008 })

/-- A channel name and the default key. -/
def channel (name : List Byte) (nameLen : BitVec 8) (keyLen : BitVec 6) : State :=
  machine (writeBytes (writeBytes [] 0x200 name) 0x280 defaultKeyBytes)
    (fun r => { r with nameLen := nameLen, keyLen := keyLen })

/-- A PSK text and its length. -/
def psk (text : List Byte) (n : BitVec 8) : State :=
  machine (writeBytes [] 0x240 text) (fun r => { r with pskLen := n })

/-- The state of CT-1 before CTR_BUILD, and the regions of the apply commands. -/
def keyed (keyLen : BitVec 6) (src len dst dlen : BitVec 9) : State :=
  machine (writeBytes (writeBytes [] 0x100 packet) 0x280 defaultKeyBytes) (fun r => { r with
    hId := 0xDEADBEEF, hSender := 0x12345678, keyLen := keyLen, srcOff := src, srcLen := len, dstOff := dst, dstLen := dlen })

/-- The context of CT-1. -/
def contextBytes : List Byte := defaultKeyBytes ++ zeros 16

/-- CT-1: the context loaded. -/
def built (src len dst dlen : BitVec 9) : State :=
  (keyed 16 src len dst dlen).loadContext 16 contextBytes (nonce 0xDEADBEEF 0x12345678)

/-- A word in flight, started from `s`. -/
def flying (w : Word) (s : State) : State := s.start w

/-- One event waiting outside. -/
def facing (e : List Event) (s : State) : State := s.withEvents e

/-- The fault state of CT-16. -/
def faulted : State := State.reset.faultWith .keyContract

/-! ### Header codec -/

/-- HC-1 and HC-2. -/
theorem test_hdrParse_hc1_hc2 :
    (after .hdrParse (received 16)).map (reads [0x010, 0x014, 0x018, 0x01C, 0x020, 0x00C, 0x004]) =
      some [0xFFFFFFFF, 0x12345678, 0xDEADBEEF, 0x00000303, 0x00000008, 0x10, 0x00000002] ∧
    (after .hdrParse (otherBuild (received 16))).map (reads [0x01C]) = some [0x00010403] := by decide +kernel

/-- HC-7. -/
theorem test_hdrParse_hc7 :
    (after .hdrParse (received 15)).map (reads [0x010, 0x018, 0x01C, 0x00C, 0x004]) = some [0, 0, 0, 0, 0x00000104] := by
  decide +kernel

/-- HC-3 and HC-4. -/
theorem test_hdrSerialize_hc3_hc4 :
    (after .hdrSerialize (toSend 0x00010307)).map (reads [0x100, 0x104, 0x108, 0x10C, 0x110, 0x00C, 0x004]) =
      some [0xFFFFFFFF, 0x12345678, 0xDEADBEEF, 0x0000086F, 0, 0x10, 0x00000002] ∧
    (after .hdrSerialize (otherBuild (toSend 0x00010307))).map (reads [0x10C]) = some [0x0000085F] := by decide +kernel

/-- HC-8 and HC-9. -/
theorem test_hdrSerialize_hc8_hc9 :
    (after .hdrSerialize (toSend 0x00010308)).map (reads [0x100, 0x10C, 0x00C, 0x004]) = some [0, 0, 0, 0x00000204] ∧
    (after .hdrSerialize (toSend 0x00010807)).map (reads [0x100, 0x10C, 0x00C, 0x004]) = some [0, 0, 0, 0x00000204] := by
  decide +kernel

/-- The table of `decode_flags` in 95_test_vectors.md, and R70's fields. -/
theorem test_decodeFlags_table :
    decodeFlags .upstream 0x6F = { hopLimit := 7, hopStart := 3, wantAck := true, viaMqtt := false } ∧
    decodeFlags .docProse 0x6F = { hopLimit := 7, hopStart := 5, wantAck := true, viaMqtt := false } ∧
    decodeFlags .upstream 0x1F = { hopLimit := 7, hopStart := 0, wantAck := true, viaMqtt := true } ∧
    decodeFlags .docProse 0xE8 = { hopLimit := 0, hopStart := 5, wantAck := true, viaMqtt := true } := by decide

/-! ### Channel hash -/

def longFast : List Byte := [0x4c, 0x6f, 0x6e, 0x67, 0x46, 0x61, 0x73, 0x74]

/-- CH-3, CH-1 and CH-10. -/
theorem test_chHash_ch3_ch1_ch10 :
    (after .chHash (channel longFast 8 16)).map (reads [0x00C, 0x004, 0x020]) = some [0x00000008, 0x00000002, 0] ∧
    (after .chHash (channel longFast 0 0)).map (reads [0x00C, 0x004]) = some [0x00000000, 0x00000002] ∧
    (after .chHash (channel longFast 64 32)).map (reads [0x004]) = some [0x00000002] := by decide +kernel

/-- CH-8 and CH-9. -/
theorem test_chHash_ch8_ch9 :
    (after .chHash (channel longFast 65 16)).map (reads [0x00C, 0x004]) = some [0, 0x00000704] ∧
    (after .chHash (channel longFast 8 33)).map (reads [0x00C, 0x004]) = some [0, 0x00000704] := by decide +kernel

/-! ### PSK key deriver -/

/-- The base64 cases PD-16 to PD-22, and a whole three-byte group. -/
theorem test_b64decode :
    b64decode [0x41, 0x51, 0x3d] = none ∧ b64decode [0x41, 0x51] = none ∧ b64decode [0x41, 0x52, 0x3d, 0x3d] = none ∧
    b64decode [0x41, 0x51, 0x3d, 0x3d, 0x0a] = none ∧ b64decode [0x41, 0x41, 0x2d, 0x5f] = none ∧
    b64decode [0x3d, 0x3d, 0x3d, 0x3d] = none ∧ b64decode [0x41, 0x3d, 0x3d, 0x3d] = none ∧
    b64decode [0x41, 0x51, 0x3d, 0x3d, 0x41, 0x51, 0x3d, 0x3d] = none ∧
    b64decode [0x71, 0x38, 0x30, 0x3d] = some [0xab, 0xcd] ∧
    b64decode [0x2f, 0x2b, 0x41, 0x7a] = some [0xff, 0xe0, 0x33] := by decide +kernel

/-- PD-5 (one byte 0xFF) and PD-8 (ten bytes, padded on the left). -/
theorem test_pskDerive_pd5_pd8 :
    (after .pskDerive (psk [0x2f, 0x77, 0x3d, 0x3d] 4)).map (reads [0x280, 0x28C, 0x290, 0x030, 0x00C, 0x004]) =
      some [0x3abbf1d4, 0xff694ecf, 0, 16, 16, 0x00000002] ∧
    (after .pskDerive (psk [0x41, 0x51, 0x49, 0x44, 0x42, 0x41, 0x55, 0x47, 0x42, 0x77, 0x67, 0x4a, 0x43, 0x67, 0x3d,
      0x3d] 16)).map (reads [0x280, 0x284, 0x288, 0x28C, 0x290, 0x030]) =
      some [0x00000000, 0x02010000, 0x06050403, 0x0a090807, 0, 16] := by decide +kernel

/-- PD-1, PD-2, PD-14 and PD-15, KEY holding a byte before. -/
theorem test_pskDerive_pd1_pd2_pd14_pd15 :
    (after .pskDerive (psk [] 0)).map (reads [0x030, 0x004]) = some [0, 0x00000404] ∧
    (after .pskDerive ((psk [0x41, 0x41, 0x3d, 0x3d] 4).storeBytes 0x283 [0x77])).map (reads [0x280, 0x030, 0x004]) =
      some [0, 0, 0x00000002] ∧
    (after .pskDerive ((psk (List.replicate 64 0x41) 64).storeBytes 0x283 [0x77])).map (reads [0x280, 0x004]) =
      some [0x77000000, 0x00000504] ∧
    (after .pskDerive (psk [] 65)).map (reads [0x004]) = some [0x00000704] := by decide +kernel

/-! ### AES counter-mode engine -/

/-- CT-1. -/
theorem test_ctrBuild_ct1 :
    (after .ctrBuild (keyed 16 0 0 0 0)).map (fun t => (reads [0x00C, 0x004] t, t.ctx.n0.toList, t.ctx.klen)) =
      some ([0x80, 0x00000012],
        [0xef, 0xbe, 0xad, 0xde, 0, 0, 0, 0, 0x78, 0x56, 0x34, 0x12, 0, 0, 0, 0], 16) := by decide +kernel

/-- CT-16. -/
theorem test_ctrBuild_ct16 :
    (after .ctrBuild (built 0 0 0 0)).isSome = true ∧
    (after .ctrBuild (keyed 24 0 0 0 0)).map (reads [0x00C, 0x004]) = some [0, 0x00000A0C] ∧
    (after .ctrBuild (keyed 0 0 0 0 0)).map (reads [0x004]) = some [0x00000A0C] := by decide +kernel

/-- CT-5 and CT-6: the second keystream block, under LOW and under HIGH. -/
theorem test_keyBlock_ct5_ct6 :
    let c : Context :=
      { valid := true, klen := 16, key := bytesToVector 32 contextBytes, n0 := bytesToVector 16 (nonce 1 0xA1B2C3D4) }
    keyBlock .low c 1 =
      [0xbf, 0x1c, 0x97, 0x1d, 0xb5, 0x22, 0x94, 0xf3, 0x18, 0x49, 0x1d, 0x87, 0x45, 0x55, 0x3c, 0x45] ∧
    keyBlock .high c 1 =
      [0x23, 0xa1, 0xfd, 0x37, 0x24, 0xf7, 0x8a, 0x1d, 0x3d, 0x00, 0x3d, 0x2d, 0xae, 0xbb, 0x52, 0xc4] := by
  decide +kernel

/-- CT-4: the second keystream block of an AES-256 context. -/
theorem test_keyBlock_ct4 :
    let c : Context :=
      { valid := true, klen := 32, key := bytesToVector 32 ((List.range 32).map (BitVec.ofNat 8))
        n0 := bytesToVector 16 (nonce 0xDEADBEEF 0x12345678) }
    keyBlock .low c 1 =
      [0x7a, 0x04, 0x64, 0x7e, 0x7d, 0xca, 0x9d, 0x5a, 0xe8, 0x01, 0x09, 0xee, 0x2c, 0x2a, 0xcf, 0x37] := by
  decide +kernel

/-- CT-8: the counter wraps, and only in its own four bytes. -/
theorem test_counterBlock_ct8 :
    counterBlock .low (nonce 0xFFFFFFFF 1) 1 = [0, 0, 0, 0, 0, 0, 0, 0, 1, 0, 0, 0, 0, 0, 0, 0] ∧
    counterBlock .high (nonce 0xFFFFFFFF 1) 2 =
      [0xff, 0xff, 0xff, 0xff, 0, 0, 0, 0, 1, 0, 0, 0, 2, 0, 0, 0] := by decide +kernel

/-- CT-3 and CT-15. -/
theorem test_ctrApply_ct3_ct15 :
    (after .ctrApply (built 16 5 0 0)).map (reads [0x10C, 0x110, 0x114, 0x00C, 0x004]) =
      some [0x00000863, 0x3a2a25c3, 0x0000003f, 5, 0x00000002] ∧
    (after .ctrApply (built 16 0 0 0)).map (reads [0x110, 0x00C, 0x004]) = some [0x6c6c6568, 0, 0x00000002] := by
  decide +kernel

/-- CT-13 and CT-14. -/
theorem test_ctrApply_ct13_ct14 :
    (after .ctrApply (keyed 16 16 5 0 0)).map (reads [0x110, 0x004]) = some [0x6c6c6568, 0x00000804] ∧
    (after .ctrApply (built 250 7 0 0)).map (reads [0x004]) = some [0x00000714] := by decide +kernel

/-- CT-11: the regions overlap. -/
theorem test_ctrApplyTo_ct11 :
    (after .ctrApplyTo (built 16 5 18 5)).map (reads [0x110, 0x114, 0x00C, 0x004]) =
      some [0x25c36568, 0x003f3a2a, 5, 0x00000002] := by decide +kernel

/-- CT-10, CT-17 and CT-13. -/
theorem test_ctrApplyTo_ct10_ct17_ct13 :
    (after .ctrApplyTo (built 16 5 18 4)).map (reads [0x110, 0x004]) = some [0x6c6c6568, 0x00000614] ∧
    (after .ctrApplyTo (built 16 5 252 5)).map (reads [0x110, 0x004]) = some [0x6c6c6568, 0x00000714] ∧
    (after .ctrApplyTo (keyed 16 16 5 18 4)).map (reads [0x004]) = some [0x00000804] := by decide +kernel

/-! ### Control -/

/-- ER-7 and ER-8: SRESET from the fault state and from a busy block, at the host write. -/
theorem test_sreset_er7_er8 :
    (afterStep (faulted.withFetchWord 32 0xF)).map (reads [0x004, 0x024, 0x100]) = some [0, 0, 0] ∧
    (afterStep ((flying 1 (received 16)).withFetchWord 32 0xF)).map (reads [0x004, 0x024, 0x100]) = some [0, 0, 0] := by
  decide +kernel

/-- ER-1, ER-2 and ER-3: every illegal word, as the first command after reset. -/
theorem test_illegal_er1_er2_er3 :
    ([0x00000000, 0x00000008, 0x00000009, 0x0000000A, 0x0000000B, 0x0000000C, 0x0000000D, 0x0000000E, 0x0000001F] :
      List Nat).all (fun w => (afterStep (State.reset.withFetchWord 32 w)).map (reads [0x004]) = some [0x00000904]) =
      true := by decide +kernel

/-- ER-4: the context stays. -/
theorem test_illegal_er4 :
    (after (.illegalRsvd 1 0xF) (built 0 0 0 0)).map (reads [0x004, 0x00C]) = some [0x00000914, 0] := by decide +kernel

/-! ### Register access, one host write from reset -/

/-- The state after one host write. -/
def written (a : Offset) (v : Word) (s : State) : Option State := afterStep (facing [.host (.write a v)] s)

/-- RA-1 to RA-4, RA-6 and RA-11. -/
theorem test_register_writes_ra1_to_ra6 :
    (written 0x01C 0xFFFFFFFF State.reset).map (reads [0x01C, 0x004]) = some [0x0003FFFF, 0] ∧
    (written 0x030 0x000000FF State.reset).map (reads [0x030, 0x004]) = some [0x0000003F, 0] ∧
    (written 0x024 0x0000FFFF State.reset).map (reads [0x024, 0x004]) = some [0x000001FF, 0] ∧
    (written 0x008 0xFFFFFFFF State.reset).map (reads [0x008, 0x004]) = some [0, 0] ∧
    (written 0x00C 0x00000005 State.reset).map (reads [0x00C, 0x004]) = some [0, 0] := by decide +kernel

/-- RA-5, RA-7, RA-8 and RA-9. -/
theorem test_window_ra5_to_ra9 :
    reads [0x008] (otherBuild State.reset) = [0x00000003] ∧
    (written 0x100 0x04030201 State.reset).map (fun t => readBytes t.mem 0x100 4) = some [1, 2, 3, 4] ∧
    (written 0x102 0x11223344 State.reset).map (reads [0x100, 0x102]) = some [0, 0] ∧
    (written 0x044 0x00000007 State.reset).map (reads [0x044, 0x2A0]) = some [0, 0] := by decide +kernel

/-- ER-5 and ER-6, and program P3's clearing of REJ. -/
theorem test_status_writes_er5_er6 :
    (written 0x004 0x00000004 (State.reset.failWith .illegalCommand)).map (reads [0x004]) = some [0] ∧
    (written 0x004 0x00000004 faulted).map (reads [0x004]) = some [0x00000A0C] ∧
    (written 0x004 0x00000020 faulted.reject).map (reads [0x004]) = some [0x00000A0C] := by decide +kernel

/-- ER-9 and program P4: a write while busy. -/
theorem test_busy_write_er9 :
    (written 0x024 0x00000010 (flying 1 (received 15))).map (reads [0x004, 0x024]) = some [0x00000021, 0x0000000F] := by
  decide +kernel

/-- Program P3: a command while faulted. -/
theorem test_faulted_command_p3 :
    (written 0x000 0x00000001 faulted).map (reads [0x004]) = some [0x00000A2C] := by decide +kernel

/-- A read of STATUS hands its value back. -/
theorem test_read_returns_status :
    (afterStep (facing [.host (.read 0x004)] faulted)).map (fun t => t.port.responses) = some [0x00000A0C] := by
  decide +kernel

/-! ### Witnesses: for every obligation with hypotheses, states and operands that meet them, each clause at the bounds of
its range -/

/-- Every command answers a next state: what a witness needs of one. -/
theorem exec_next (i : Instr) (s : State) : ∃ t, exec i s = .next t := by
  rcases exec_cases i s with ⟨_, h⟩ | ⟨_, _, _, h⟩ | ⟨_, h⟩ | ⟨_, _, _, h⟩ <;> exact ⟨_, h⟩

/-- The next state of a command, checked. -/
def execGives (i : Instr) (s : State) (p : State → Bool) : Bool :=
  match exec i s with
  | .next t => p t
  | _       => false

theorem exec_gives {i : Instr} {s : State} {p : State → Bool} (h : execGives i s p = true) :
    ∃ t, exec i s = .next t ∧ p t = true := by
  obtain ⟨t, ht⟩ := exec_next i s
  exact ⟨t, ht, by simpa [execGives, ht] using h⟩

theorem witness_DecodeOfEncodeIsIdentity :
    (Instr.illegalRsvd 1 0xF).WellFormed ∧ (Instr.illegalRsvd 0xFFFFFFF 0).WellFormed ∧ Instr.sreset.WellFormed := by
  decide

theorem witness_IllegalWordsAreExactlyTheReservedOnes :
    IllegalWord 0x00000000 ∧ ¬ IllegalWord 0x00000001 ∧ ¬ IllegalWord 0x00000007 ∧ IllegalWord 0x00000008 ∧
    IllegalWord 0x0000000E ∧ ¬ IllegalWord 0x0000000F ∧ IllegalWord 0x00000010 ∧ IllegalWord 0x8000000F := by decide

theorem witness_CompletionStepRunsDecodedCommand :
    ∃ f, (facing [.complete] (flying 1 (received 16))).inflight = some f ∧
      decode (le32bytes f.word) = .ok (.hdrParse, []) ∧
      (facing [.complete] (flying 1 (received 16))).port.events = .complete :: [] ∧
      (flying 1 (received 16)).port.events = [] := ⟨_, rfl, rfl, rfl, rfl⟩

/-- A host write waiting at `s`. -/
def writing (a : Offset) (v : Word) (s : State) : State := facing [.host (.write a v)] s

theorem witness_HostStepRunsTransaction :
    (writing 0 sresetWord (received 16)).port.resetIn = false ∧
    (writing 0 sresetWord (received 16)).port.events = .host (.write 0 sresetWord) :: [] ∧
    (facing [.host (.read 0x024)] (received 16)).port.events = .host (.read 0x024) :: [] := ⟨rfl, rfl, rfl⟩

theorem witness_CmdWriteFollowsTheFourCases :
    (∀ w s, (writing 0 w s).port.events = .host (.write 0 w) :: []) ∧
    (writing 0 0x0000000F faulted).port.resetIn = false ∧
    (0x0000001F : Word) ≠ 0x0000000F ∧ (writing 0 0x0000001F (flying 1 (received 16))).busy = true ∧
    (writing 0 0x00000001 faulted).status.fault = true ∧
    (writing 0 0x00000000 (received 16)).busy = false ∧ (writing 0 0x00000000 (received 16)).status.fault = false :=
  ⟨fun _ _ => rfl, rfl, by decide, rfl, rfl, rfl, rfl⟩

theorem witness_RejectedHostWriteOnlySetsRej :
    (∀ a w s, (writing a w s).port.events = .host (.write a w) :: []) ∧
    ((writing 0x044 0x0000000F (flying 1 (received 16))).busy = true ∧ ¬ ((0x044 : Offset) = 0 ∧ (0xF : Word) = 0xF)) ∧
    ((writing 0 0x00000001 faulted).busy = false ∧ (writing 0 0x00000001 faulted).status.fault = true) ∧
    ((writing 0x024 0x00000001 faulted).busy = false ∧ (0x024 : Offset) ≠ 0) ∧
    (writing 0 0x0000000F (flying 1 (received 16))).port.resetIn = false :=
  ⟨fun _ _ _ => rfl, ⟨rfl, by decide⟩, ⟨rfl, rfl⟩, ⟨rfl, by decide⟩, rfl⟩

theorem witness_FailedCommandWritesOnlyStatus :
    (flying 1 (received 15)).status.err = false ∧ (flying 5 (keyed 15 0 0 0 0)).status.err = false ∧
    (∃ t, exec .hdrParse (flying 1 (received 15)) = .next t ∧ t.status.err = true) ∧
    (∃ t, exec .ctrBuild (flying 5 (keyed 15 0 0 0 0)) = .next t ∧ (t.status.err && t.status.fault) = true) :=
  ⟨rfl, rfl, exec_gives (by decide), exec_gives (by decide)⟩

theorem witness_CommandOutcomeIsSuccessErrorOrFault :
    Instr.hdrParse ≠ .sreset ∧ (∃ t, exec .hdrParse (flying 1 (received 16)) = .next t ∧ t.status.done = true) ∧
    (∃ t, exec .hdrParse (flying 1 (received 15)) = .next t ∧ t.status.err = true) ∧
    (∃ t, exec .ctrBuild (flying 5 (keyed 0 0 0 0 0)) = .next t ∧ t.status.fault = true) :=
  ⟨by decide, exec_gives (by decide), exec_gives (by decide), exec_gives (by decide)⟩

theorem witness_ReadsHaveNoEffectAndWritesRepeat :
    (facing [.host (.read 0x100), .host (.read 0x100)] (received 16)).port.events =
      .host (.read 0x100) :: .host (.read 0x100) :: [] ∧
    (received 16).port.resetIn = false ∧ (received 16).mem.wf ∧ (0x100 : Offset) ≠ 0 ∧
    (flying 1 (received 16)).mem.wf ∧ (flying 1 (received 16)).busy = true ∧
    faulted.mem.wf ∧ faulted.busy = false ∧ faulted.status.fault = true ∧ (0x00000001 : Word) ≠ 0x0000000F := by
  refine ⟨rfl, rfl, ?_, ?_, ?_, rfl, ?_, rfl, rfl, ?_⟩ <;> decide +kernel

theorem witness_StatusWriteClearsWrittenOnes :
    (State.reset.failWith .range).busy = false ∧ (State.reset.failWith .range).status.fault = false ∧
    faulted.busy = false ∧ faulted.status.fault = true ∧
    (0x00000004 : Word).toNat.testBit 2 = true ∧ (0x00000022 : Word).toNat.testBit 2 = false := by decide

theorem witness_RegisterWriteReadsBackItsNamedBits :
    ((0x010, 0xFFFFFFFF) : Offset × Word) ∈ rwRegisters ∧ ((0x040, 0x000001FF) : Offset × Word) ∈ rwRegisters ∧
    (received 16).busy = false := by decide

theorem witness_HostWriteChangesOnlyItsOffset :
    (received 16).busy = false ∧ (0x004 : Offset) ≠ 0 ∧ ((0x100 : Offset) ≠ 0x29C) ∧ ¬ MappedOffset 0x102 ∧
    MappedOffset 0x29C := by decide

theorem witness_BufferWordsAreLittleEndian :
    (received 16).mem.wf ∧ (received 16).busy = false ∧ (flying 1 (received 16)).busy = true ∧
    ([0x100, 0x1FC, 0x200, 0x23C, 0x240, 0x27C, 0x280, 0x29C] : List Offset).all
      (fun a => decide (a.toNat % 4 = 0 ∧ 0x100 ≤ a.toNat ∧ a.toNat < 0x2A0)) = true := by decide +kernel

theorem witness_UnmappedOffsetsReadZeroAndIgnoreWrites :
    ([0x001, 0x042, 0x044, 0x0FC, 0x102, 0x2A0, 0xFFC] : List Offset).all (fun a => decide (¬ MappedOffset a)) = true ∧
    ([0x000, 0x040, 0x100, 0x29C] : List Offset).all (fun a => decide (MappedOffset a)) = true ∧
    (received 16).busy = false ∧ (flying 1 (received 16)).busy = true := by decide +kernel

theorem witness_ConfigShowsTheBuildAndNeverChanges :
    (∃ t, step (writing 0x008 0xFFFFFFFF State.reset) = .next t) ∧
    (otherBuild State.reset).build.flagLayout = .docProse ∧ (otherBuild State.reset).build.ctrPos = .high :=
  ⟨⟨_, rfl⟩, rfl, rfl⟩

theorem inv_faulted : faulted.Inv where
  memWf := by decide
  memInBuffers := by decide
  errcodeNone := by decide
  doneNotErr := by decide
  faultCode := by decide
  faultQuiet := by decide
  ctxKlen := by decide
  flight := fun _ h => by cases h
  heldInReset := by decide

/-- A block with a context loaded and a command in flight. -/
theorem inv_flying : (flying 6 (built 16 5 0 0)).Inv where
  memWf := by decide +kernel
  memInBuffers := by decide +kernel
  errcodeNone := by decide
  doneNotErr := by decide
  faultCode := by decide
  faultQuiet := by decide
  ctxKlen := fun _ => .inl rfl
  flight := fun _ h => by cases h; exact ⟨rfl, rfl, by decide, rfl, rfl, rfl⟩
  heldInReset := by decide

theorem witness_FaultStateIsLeftOnlyByReset :
    faulted.Inv ∧ faulted.status.fault = true ∧ (∃ t, step faulted = .next t) := ⟨inv_faulted, rfl, _, rfl⟩

theorem witness_RejectedWriteDoesNotDisturbTheCommand :
    Instr.hdrParse ≠ .sreset ∧ (flying 1 (received 16)).busy = true ∧
    (∃ t, exec .hdrParse (flying 1 (received 16)) = .next t) := ⟨by decide, rfl, exec_next _ _⟩

theorem witness_CommandInFlightEventuallyEnds :
    (writing 0x024 1 (flying 1 (received 16))).inflight.isSome = true ∧
    (writing 0x024 1 (flying 1 (received 16))).port.resetIn = false := ⟨rfl, rfl⟩

theorem witness_StepIsRefusedOnlyDuringHardReset :
    ((writing 0x024 1 State.reset).setResetIn true).port.resetIn = true ∧
    ((writing 0x024 1 State.reset).setResetIn true).port.events = .host (.write 0x024 1) :: [] := ⟨rfl, rfl⟩

theorem witness_BothResetsGiveTheResetValues :
    (facing [.assertReset] (flying 6 (built 16 5 0 0))).port.events = .assertReset :: [] := rfl

theorem witness_StepKeepsInvariant :
    (flying 6 (built 16 5 0 0)).Inv ∧ (∃ t, step (flying 6 (built 16 5 0 0)) = .next t) :=
  ⟨inv_flying, exec_next .ctrApply (flying 6 (built 16 5 0 0))⟩

theorem witness_OutputsAppearOnlyAtTheCompletion :
    (writing 0x024 1 (flying 1 (received 15))).busy = true ∧
    (∃ t, step (writing 0x024 1 (flying 1 (received 15))) = .next t ∧ t.busy = true) ∧
    (∃ t, step (flying 1 (received 15)) = .next t ∧ t.busy = false) ∧
    (∃ f, (facing [.complete, .host (.read 0x010)] (flying 1 (received 16))).inflight = some f) ∧
    (facing [.complete, .host (.read 0x010)] (flying 1 (received 16))).port.resetIn = false ∧
    (facing [.complete, .host (.read 0x010)] (flying 1 (received 16))).port.events =
      .complete :: .host (.read 0x010) :: [] :=
  ⟨rfl, ⟨_, rfl, rfl⟩,
    (exec_gives (i := .hdrParse) (s := flying 1 (received 15)) (p := fun t => !t.busy) (by decide)).imp
      (fun _ h => ⟨h.1, by simpa using h.2⟩),
    ⟨_, rfl⟩, rfl, rfl⟩

theorem witness_HostCannotReadOrWriteTheContext :
    ({ (built 0 0 0 0).ctx with klen := 32 } : Context).valid = (built 0 0 0 0).ctx.valid ∧
    (∃ t, hostWrite 0x280 1 (built 0 0 0 0) = .next t) ∧ (∃ t, hostWrite 0 0xF (built 0 0 0 0) = .next t) :=
  ⟨rfl, ⟨_, rfl⟩, ⟨_, rfl⟩⟩

theorem witness_OnlyCmdWriteLeavesIdle :
    (writing 0 0x00000001 (received 16)).busy = false ∧
    (∃ t, step (writing 0 0x00000001 (received 16)) = .next t ∧ t.busy = true) := ⟨rfl, _, rfl, rfl⟩

theorem witness_HdrParseReadsTheWireHeader :
    (received 15).inputs.regs.pktLen.toNat < 16 ∧ 16 ≤ (received 16).inputs.regs.pktLen.toNat ∧
    16 ≤ (received 511).inputs.regs.pktLen.toNat ∧ (received 16).build.flagLayout = .upstream ∧
    16 ≤ (otherBuild (received 16)).inputs.regs.pktLen.toNat ∧
    (otherBuild (received 16)).build.flagLayout = .docProse := by decide +kernel

theorem witness_HdrSerializeWritesTheWireHeader :
    (toSend 0x00030707).mem.wf ∧ (toSend 0x00030707).inputs.regs.hFlags.hopLimit.toNat ≤ 7 ∧
    (toSend 0x00030707).inputs.regs.hFlags.hopStart.toNat ≤ 7 ∧
    7 < (toSend 0x00000008).inputs.regs.hFlags.hopLimit.toNat ∧ 7 < (toSend 0x00000800).inputs.regs.hFlags.hopStart.toNat ∧
    (toSend 0x00030707).build.flagLayout = .upstream ∧
    (otherBuild (toSend 0x00030707)).build.flagLayout = .docProse := by decide +kernel

/-- HC-5's flags, ready for both header commands. -/
def roundTrip : State := { toSend 0x00030707 with regs := { (toSend 0x00030707).regs with pktLen := 16 } }

theorem witness_HeaderRoundTrips :
    (∃ t u, runCommand .hdrSerialize roundTrip = .next t ∧ runCommand .hdrParse t = .next u) ∧
    (∃ t u, runCommand .hdrParse (received 16) = .next t ∧ runCommand .hdrSerialize t = .next u) ∧
    roundTrip.mem.wf ∧ roundTrip.regs.hFlags.hopLimit.toNat ≤ 7 ∧ roundTrip.regs.hFlags.hopStart.toNat ≤ 7 ∧
    16 ≤ roundTrip.regs.pktLen.toNat ∧ (received 16).mem.wf ∧ 16 ≤ (received 16).regs.pktLen.toNat := by
  refine ⟨?_, ?_, by decide +kernel⟩
  · obtain ⟨t, ht⟩ := exec_next .hdrSerialize (roundTrip.start 2)
    obtain ⟨u, hu⟩ := exec_next .hdrParse (t.start 1)
    exact ⟨t, u, ht, hu⟩
  · obtain ⟨t, ht⟩ := exec_next .hdrParse ((received 16).start 1)
    obtain ⟨u, hu⟩ := exec_next .hdrSerialize (t.start 2)
    exact ⟨t, u, ht, hu⟩

theorem witness_HeaderCommandsFrame :
    (∃ t, exec .hdrParse (received 16) = .next t ∧ t.status.done = true) ∧
    (∃ t, exec .hdrSerialize roundTrip = .next t ∧ t.status.done = true) :=
  ⟨exec_gives (by decide), exec_gives (by decide)⟩

theorem witness_ChHashFoldsNameAndKey :
    (channel longFast 64 32).inputs.regs.nameLen.toNat ≤ 64 ∧ (channel longFast 64 32).inputs.regs.keyLen.toNat ≤ 32 ∧
    64 < (channel longFast 65 0).inputs.regs.nameLen.toNat ∧ 32 < (channel longFast 0 33).inputs.regs.keyLen.toNat := by
  decide

/-- CH-4: the name reversed. -/
theorem witness_ChHashIsOrderIndependent :
    let bytes := fun x : Snapshot =>
      readBytes x.mem nameBase x.regs.nameLen.toNat ++ readBytes x.mem keyBase x.regs.keyLen.toNat
    let s := channel longFast 8 16
    let s' := channel longFast.reverse 8 16
    (bytes s.inputs).Perm (bytes s'.inputs) ∧ s.inputs.regs.nameLen.toNat ≤ 64 ∧ s.inputs.regs.keyLen.toNat ≤ 32 ∧
    s'.inputs.regs.nameLen.toNat ≤ 64 ∧ s'.inputs.regs.keyLen.toNat ≤ 32 ∧
    (∃ t, exec .chHash s = .next t) ∧ (∃ t, exec .chHash s' = .next t) := by
  refine ⟨by decide +kernel, by decide, by decide, by decide, by decide, exec_next _ _, exec_next _ _⟩

theorem witness_ChHashAndIllegalCommandsFrame :
    (∃ t, exec .chHash (channel longFast 8 16) = .next t) ∧ Instr.illegal0.isIllegal = true ∧
    (∃ t, exec .illegal0 (channel longFast 8 16) = .next t) := ⟨exec_next _ _, rfl, exec_next _ _⟩

/-- The canonical text of a byte string in PSK_TEXT. -/
def pskOf (d : List Byte) : State := psk (b64encode d) (BitVec.ofNat 8 (b64encode d).length)

theorem witness_PskDeriveDerivesTheKey :
    64 < (psk [] 65).inputs.regs.pskLen.toNat ∧ (psk [] 65).mem.wf ∧
    (let s := psk [0x41, 0x52, 0x3d, 0x3d] 4
     s.mem.wf ∧ s.inputs.regs.pskLen.toNat ≤ 64 ∧ b64decode (readBytes s.inputs.mem 0x240 s.inputs.regs.pskLen.toNat) = none) ∧
    (∀ d ∈ [[], [0x00], [0x01], [0xFF], List.replicate 2 0xA5, List.replicate 15 0xA5, List.replicate 16 0xA5,
        List.replicate 17 0xA5, List.replicate 31 0xA5, List.replicate 32 0xA5, List.replicate 33 0xA5,
        List.replicate 48 0xA5],
      (pskOf d).mem.wf ∧ (pskOf d).inputs.regs.pskLen.toNat ≤ 64 ∧
        b64decode (readBytes (pskOf d).inputs.mem 0x240 (pskOf d).inputs.regs.pskLen.toNat) = some d) := by
  decide +kernel

theorem witness_OneBytePskChangesOnlyTheLastKeyByte :
    (0x01 : Byte) ≠ 0 ∧ (0xFF : Byte) ≠ 0 ∧ Build.specValues.defaultKey[15] = 0x01 := by decide

theorem witness_PskDeriveFrame : ∃ t, exec .pskDerive (pskOf [0x01]) = .next t := exec_next _ _

theorem witness_CounterBlockCountsModulo32Bits : (nonce 0xFFFFFFFF 1).length = 16 := rfl

theorem witness_CounterBlocksOverlapOnlyUnderLow :
    ((1 : Word) - 0xFFFFFFFF).toNat < 3 ∧ ¬ ((2 : Word) - 0xFFFFFFFF).toNat < 3 ∧
    counterBlock .high (nonce 7 1) 15 = counterBlock .high (nonce 7 1) 15 ∧ 15 < 16 := by
  refine ⟨by decide, by decide, rfl, by decide⟩

theorem witness_AesRoundStepsActOnRowsAndColumns :
    (packet.take 16).length = 16 ∧ (keyExpansion defaultKeyBytes).all (fun x => x.length == 4) = true ∧
    4 * 10 + 4 ≤ (keyExpansion defaultKeyBytes).length := by decide +kernel

theorem witness_KeyExpansionFollowsItsRecurrence :
    defaultKeyBytes.length = 16 ∧ ((List.range 32).map (BitVec.ofNat 8)).length = 32 := by decide

theorem witness_CtrBuildLoadsTheContextOrFaults :
    ([0, 15, 17, 31, 33, 63] : List (BitVec 6)).all (fun n =>
      (keyed n 0 0 0 0).inputs.regs.keyLen.toNat != 16 && (keyed n 0 0 0 0).inputs.regs.keyLen.toNat != 32) = true ∧
    (keyed 16 0 0 0 0).inputs.regs.keyLen.toNat = 16 ∧ (keyed 32 0 0 0 0).inputs.regs.keyLen.toNat = 32 := by decide

theorem witness_CtrApplyXorsTheKeystreamInPlace :
    (built 16 5 0 0).mem.wf ∧ (built 16 5 0 0).inputs.ctx.valid = true ∧ (keyed 16 0 0 0 0).inputs.ctx.valid = false ∧
    (let r := (built 250 6 0 0).inputs.regs; r.srcOff.toNat + r.srcLen.toNat ≤ 256) ∧
    (let r := (built 0 256 0 0).inputs.regs; r.srcOff.toNat + r.srcLen.toNat ≤ 256) ∧
    (let r := (built 256 0 0 0).inputs.regs; r.srcOff.toNat + r.srcLen.toNat ≤ 256) ∧
    (let r := (built 250 7 0 0).inputs.regs; 256 < r.srcOff.toNat + r.srcLen.toNat) ∧
    (let r := (built 511 511 0 0).inputs.regs; 256 < r.srcOff.toNat + r.srcLen.toNat) := by decide +kernel

theorem witness_CtrApplyToXorsIntoTheDestination :
    (built 16 5 18 5).mem.wf ∧ (built 16 5 18 5).inputs.ctx.valid = true ∧ (keyed 16 0 0 0 0).inputs.ctx.valid = false ∧
    (let r := (built 16 5 300 4).inputs.regs; r.srcLen.toNat ≠ r.dstLen.toNat) ∧
    (let r := (built 251 5 251 5).inputs.regs
     r.srcLen.toNat = r.dstLen.toNat ∧ r.srcOff.toNat + r.srcLen.toNat ≤ 256 ∧ r.dstOff.toNat + r.dstLen.toNat ≤ 256) ∧
    (let r := (built 252 5 16 5).inputs.regs
     r.srcLen.toNat = r.dstLen.toNat ∧ 256 < r.srcOff.toNat + r.srcLen.toNat) ∧
    (let r := (built 16 5 252 5).inputs.regs
     r.srcLen.toNat = r.dstLen.toNat ∧ 256 < r.dstOff.toNat + r.dstLen.toNat) := by decide +kernel

theorem witness_CtrApplyToOnTheSourceIsCtrApply :
    (built 16 5 16 5).inputs.regs.dstOff = (built 16 5 16 5).inputs.regs.srcOff ∧
    (built 16 5 16 5).inputs.regs.dstLen = (built 16 5 16 5).inputs.regs.srcLen := by decide

theorem witness_CipherCommandsFrame :
    (∃ t, exec .ctrBuild (keyed 16 16 5 18 5) = .next t ∧ t.status.done = true) ∧
    (∃ t, exec .ctrApply (built 16 5 18 5) = .next t ∧ t.status.done = true) ∧
    (∃ t, exec .ctrApplyTo (built 16 5 18 5) = .next t ∧ t.status.done = true) :=
  ⟨exec_gives (by decide), exec_gives (by decide +kernel), exec_gives (by decide +kernel)⟩

theorem witness_CipherIsItsOwnInverse :
    (let s := keyed 16 251 5 0 0
     s.mem.wf ∧ s.regs.keyLen.toNat = 16 ∧ s.regs.srcOff.toNat + s.regs.srcLen.toNat ≤ 256) ∧
    (let s := keyed 32 0 256 0 0
     s.mem.wf ∧ s.regs.keyLen.toNat = 32 ∧ s.regs.srcOff.toNat + s.regs.srcLen.toNat ≤ 256) ∧
    (∃ s1 s2 s3 s4, runCommand .ctrBuild (keyed 16 251 5 0 0) = .next s1 ∧ runCommand .ctrApply s1 = .next s2 ∧
      runCommand .ctrBuild s2 = .next s3 ∧ runCommand .ctrApply s3 = .next s4) := by
  refine ⟨by decide +kernel, by decide +kernel, ?_⟩
  obtain ⟨s1, h1⟩ := exec_next .ctrBuild ((keyed 16 251 5 0 0).start 5)
  obtain ⟨s2, h2⟩ := exec_next .ctrApply (s1.start 6)
  obtain ⟨s3, h3⟩ := exec_next .ctrBuild (s2.start 5)
  obtain ⟨s4, h4⟩ := exec_next .ctrApply (s3.start 6)
  exact ⟨s1, s2, s3, s4, h1, h2, h3, h4⟩

theorem witness_ContextServesOneRegion :
    (∃ t, runCommand .ctrApply (built 16 5 18 5) = .next t ∧ t.status.err = false) ∧
    (∃ t, runCommand .ctrApplyTo (built 16 5 18 5) = .next t ∧ t.status.err = false) :=
  ⟨(exec_gives (i := .ctrApply) (p := fun t => !t.status.err) (by decide +kernel)).imp
      (fun _ h => ⟨h.1, by simpa using h.2⟩),
    (exec_gives (i := .ctrApplyTo) (p := fun t => !t.status.err) (by decide +kernel)).imp
      (fun _ h => ⟨h.1, by simpa using h.2⟩)⟩

theorem witness_IllegalCommandsComplete :
    ∀ i ∈ [Instr.illegal0, .illegal8, .illegal9, .illegalA, .illegalB, .illegalC, .illegalD, .illegalE,
      .illegalRsvd 1 0xF], i.isIllegal = true := by decide

theorem witness_IllegalWordReportsIllegalCommand :
    IllegalWord 0x0000001F ∧
    (∀ s, (facing [.host (.write 0 0x0000001F), .complete] s).port.events =
      .host (.write 0 0x0000001F) :: .complete :: []) ∧
    (received 16).port.resetIn = false ∧ (received 16).busy = false ∧ (received 16).status.fault = false ∧
    (flying 1 (received 16)).busy = true ∧ faulted.status.fault = true :=
  ⟨by decide, fun _ => rfl, rfl, rfl, rfl, rfl, rfl⟩

theorem witness_SresetResetsAtTheWrite :
    (writing 0 0x0000000F faulted).port.resetIn = false ∧
    (writing 0 0x0000000F faulted).port.events = .host (.write 0 0x0000000F) :: [] := ⟨rfl, rfl⟩

end Sys2Proof.Tests
end

section
/-! SUPPORT. The family of the block's state: which host writes are rejected (R41), and that CONFIG and the build
never change (R22). -/

namespace Sys2Proof.Machine

/-! ### Rejected and taken host writes (R41) -/

/-- A write to CMD in the fault state, or any write while busy, is rejected unless it is the SRESET write. -/
theorem hostWrite_rejected {a : Offset} {v : Word} {s : State}
    (hr : s.busy = true ∨ s.status.fault = true ∧ a = 0) (hs : ¬ (a = 0 ∧ v = sresetWord)) :
    hostWrite a v s = .next s.reject := by
  rcases hostWrite_cases a v s with
    ⟨ha, hv, _⟩ | ⟨_, _, h⟩ | ⟨_, _, hb, hf, _⟩ | ⟨ha, hb, _⟩
  · exact absurd ⟨ha, hv⟩ hs
  · exact h
  · simp [hb, hf] at hr
  · exact absurd (hr.resolve_left (by simp [hb])).2 ha

/-- Writing STATUS can clear REJ but not set it. -/
theorem rej_of_rej_clearStatus {st : Status} {v : Word} (h : (clearStatus st v).rej = true) : st.rej = true :=
  (Bool.and_eq_true_iff.mp h).1

theorem rej_of_rej_writeIdle {s : State} {v : Word} {t : Target} (h : (writeIdle s v t).status.rej = true) :
    s.status.rej = true := by
  rw [writeIdle_status] at h
  split at h
  · exact rej_of_rej_clearStatus h
  · exact h

/-- Every other host write answers a next state in which REJ is not newly set. -/
theorem hostWrite_taken {a : Offset} {v : Word} {s : State}
    (h : (s.busy = true ∨ s.status.fault = true ∧ a = 0) → a = 0 ∧ v = sresetWord) :
    ∃ t, hostWrite a v s = .next t ∧ (t.status.rej = true → s.status.rej = true) := by
  rcases hostWrite_cases a v s with
    ⟨_, _, heq⟩ | ⟨hr, hs, _⟩ | ⟨_, _, _, _, heq⟩ | ⟨_, _, heq⟩
  · exact ⟨_, heq, fun hrej => by cases hrej⟩
  · exact absurd (h hr) hs
  · exact ⟨_, heq, id⟩
  · exact ⟨_, heq, rej_of_rej_writeIdle⟩

/-- Settles O8: a host step is `hostWrite`, and the obligation's two kinds of rejected write are those of
`hostWrite_rejected`. -/
theorem rejectedHostWriteOnlySetsRej : Obligations.RejectedHostWriteOnlySetsRej := by
  intro s a v es hr he sresetWrite rejected
  rw [step_host he hr]
  constructor
  · rintro (⟨hb, hs⟩ | ⟨_, hf, ha, hs⟩)
    · exact hostWrite_rejected (.inl hb) hs
    · exact hostWrite_rejected (.inr ⟨hf, ha⟩) hs
  · intro hn
    refine hostWrite_taken (s := s.withEvents es) fun hc => by_contra fun hs => hn ?_
    rcases hb : s.busy with _ | _
    · obtain ⟨hf, ha⟩ := hc.resolve_left (by simp [hb])
      exact .inr ⟨hb, hf, ha, hs⟩
    · exact .inl ⟨hb, hs⟩

/-! ### The build and CONFIG (R22) -/

theorem readWindow_config (s : State) : readWindow s 0x008 = configWord s.build := rfl

theorem exec_keeps_build {i : Instr} {s t : State} (h : exec i s = .next t) : t.build = s.build := by
  rcases exec_cases i s with ⟨_, heq⟩ | ⟨_, _, _, heq⟩ | ⟨_, heq⟩ | ⟨s', r, hout, heq⟩ <;>
    cases heq.symm.trans h
  · rfl
  · rfl
  · rfl
  · exact hout.build

theorem completion_keeps_build {s t : State} (h : completion s = .next t) : t.build = s.build := by
  rcases completion_cases h with ⟨_, rfl⟩ | ⟨_, _, hexec⟩
  · rfl
  · exact exec_keeps_build hexec

theorem hostWrite_keeps_build {a : Offset} {v : Word} {s t : State} (h : hostWrite a v s = .next t) :
    t.build = s.build := by
  rcases hostWrite_cases a v s with ⟨_, _, heq⟩ | ⟨_, _, heq⟩ | ⟨_, _, _, _, heq⟩ | ⟨_, _, heq⟩ <;>
    cases heq.symm.trans h
  · rfl
  · rfl
  · rfl
  · exact writeIdle_build s v (targetOf a)

/-- No step changes the build, an edge of the hard reset input included. -/
theorem step_keeps_build {s t : State} (h : step s = .next t) : t.build = s.build := by
  rcases step_cases h with
    ⟨_, hc⟩ | ⟨es, ⟨_, hc⟩ | ⟨_, _, _, rfl⟩ | ⟨_, _, _, _, hw⟩ | ⟨_, rfl⟩ | ⟨_, rfl⟩⟩
  · exact completion_keeps_build hc
  · exact completion_keeps_build (s := s.withEvents es) hc
  · rfl
  · exact hostWrite_keeps_build (s := s.withEvents es) hw
  · rfl
  · rfl

/-- Settles O20: CONFIG is computed from the build, and no step changes the build. -/
theorem configShowsTheBuildAndNeverChanges : Obligations.ConfigShowsTheBuildAndNeverChanges := by
  refine ⟨fun s => ?_, fun s t h => ?_⟩
  · rw [readWindow_config]
    cases hlayout : s.build.flagLayout <;> cases hpos : s.build.ctrPos <;>
      simp [configWord, flagBit, hlayout, hpos]
  · have hbuild := step_keeps_build h
    exact ⟨hbuild, by rw [readWindow_config, readWindow_config, hbuild]⟩

end Sys2Proof.Machine
end

section
/-! SUPPORT. The family of the register window: reads have no side effect and writes repeat (R48), the named and the
reserved bits of the registers (R47), the words of the buffers (R49), and the offsets that name nothing (R46). -/

namespace Sys2Proof.Machine

/-! ### Reads have no side effect (R48) -/

/-- What a read returns depends on the block alone: neither the events waiting nor the values handed back matter. -/
theorem readWindow_respond_withEvents (s : State) (es : List Event) (v : Word) (a : Offset) :
    readWindow ((s.withEvents es).respond v) a = readWindow s a := by
  simp only [readWindow]
  cases targetOf a <;> rfl

theorem step_read {s : State} {a : Offset} {es : List Event} (hr : s.port.resetIn = false)
    (he : s.port.events = .host (.read a) :: es) :
    step s = .next ((s.withEvents es).respond (readWindow (s.withEvents es) a)) := by
  rw [step_host he hr]
  rfl

/-! ### Writes repeat (R48) -/

theorem clearStatus_clearStatus (st : Status) (v : Word) : clearStatus (clearStatus st v) v = clearStatus st v := by
  simp only [clearStatus, Bool.and_assoc, Bool.and_self]
  split <;> rfl

theorem writeIdle_writeIdle {s : State} (h : s.mem.wf) (v : Word) (t : Target) :
    writeIdle (writeIdle s v t) v t = writeIdle s v t := by
  cases t
  case status => simp only [writeIdle, clearStatus_clearStatus]
  case buffer n => simp only [writeIdle, State.storeBytes, writeBytes_twice h]
  all_goals rfl

/-- A taken write other than to CMD repeats: the second write finds the block idle again. -/
theorem hostWrite_idle_repeats {s : State} {a : Offset} (v : Word) (hwf : s.mem.wf) (ha : a ≠ 0)
    (hb : s.busy = false) : ∃ t, hostWrite a v s = .next t ∧ hostWrite a v t = .next t := by
  refine ⟨_, hostWrite_idle v ha hb, ?_⟩
  rw [hostWrite_idle v ha (by rw [writeIdle_busy, hb]), writeIdle_writeIdle hwf]

/-- A rejected write repeats: REJ is set already, and the second write is rejected for the same reason. -/
theorem hostWrite_rejected_repeats {s : State} {a : Offset} {v : Word}
    (hr : s.busy = true ∨ s.status.fault = true ∧ a = 0) (hs : ¬ (a = 0 ∧ v = sresetWord)) :
    ∃ t, hostWrite a v s = .next t ∧ hostWrite a v t = .next t :=
  ⟨s.reject, hostWrite_rejected hr hs, hostWrite_rejected (s := s.reject) hr hs⟩

/-- Settles O12: a read depends on the block alone, which it leaves as it was; a write outside CMD is taken or, while
busy, rejected, and each kind repeats. -/
theorem readsHaveNoEffectAndWritesRepeat : Obligations.ReadsHaveNoEffectAndWritesRepeat := by
  refine ⟨fun s a es hr he => ?_, fun s a v hwf h => ?_⟩
  · refine ⟨_, _, step_read hr he, rfl, rfl, rfl, rfl, rfl, rfl, rfl, _, step_read hr rfl, ?_⟩
    exact congrArg (· :: _) (readWindow_respond_withEvents (s.withEvents _) es _ a)
  · by_cases ha : a = 0
    · obtain ⟨hv, hbf⟩ := h.resolve_left (not_not_intro ha)
      exact hostWrite_rejected_repeats (hbf.imp_right fun hf => ⟨hf, ha⟩) fun hs => hv hs.2
    · rcases hb : s.busy with _ | _
      · exact hostWrite_idle_repeats v hwf ha hb
      · exact hostWrite_rejected_repeats (.inl hb) fun hs => ha hs.1

/-! ### Fields of a word (R47) -/

/-- The word whose bits `i` to `i + w - 1` are 1 and whose other bits are 0. -/
def fieldMask (i w : Nat) : Word := (BitVec.allOnes w).setWidth 32 <<< i

theorem fieldMask_getLsbD (i w : Nat) {k : Nat} (hk : k < 32) :
    (fieldMask i w).getLsbD k = decide (i ≤ k ∧ k < i + w) := by
  rw [Bool.eq_iff_iff]
  simp only [fieldMask, BitVec.getLsbD_shiftLeft, BitVec.getLsbD_setWidth, BitVec.getLsbD_allOnes,
    Bool.and_eq_true, Bool.not_eq_true', decide_eq_true_eq, decide_eq_false_iff_not]
  omega

/-- A field put back where it was taken from is the word cut down to that field. -/
theorem extractLsb'_shiftLeft_eq_and (v : Word) (i w : Nat) :
    (v.extractLsb' i w).setWidth 32 <<< i = v &&& fieldMask i w := by
  apply BitVec.eq_of_getLsbD_eq
  intro k hk
  rw [BitVec.getLsbD_and, fieldMask_getLsbD i w hk]
  by_cases hki : k < i
  · simp [hki]
  · have hwidth : k - i < w ↔ k < i + w := by omega
    simp [hki, hk, hwidth, show i + (k - i) = k by omega, Nat.le_of_not_lt hki, Bool.and_comm]

theorem extractLsb'_zero_eq_and (v : Word) (w : Nat) : (v.extractLsb' 0 w).setWidth 32 = v &&& fieldMask 0 w := by
  rw [← extractLsb'_shiftLeft_eq_and, BitVec.shiftLeft_zero]

/-- A narrow register takes the low bits of the word written. -/
theorem setWidth_setWidth_eq_and (v : Word) {w : Nat} (hw : w ≤ 32) :
    (v.setWidth w).setWidth 32 = v &&& fieldMask 0 w := by
  rw [BitVec.setWidth_eq_extractLsb' hw, extractLsb'_zero_eq_and]

/-- A flag put back where it was taken from is the word cut down to that bit. -/
theorem flagBit_getLsbD_eq_and (v : Word) {i : Nat} (hi : i < 32) : flagBit (v.getLsbD i) i = v &&& fieldMask i 1 := by
  apply BitVec.eq_of_getLsbD_eq
  intro k hk
  rw [flagBit_getLsbD _ hi, BitVec.getLsbD_and, fieldMask_getLsbD i 1 hk]
  by_cases hki : k = i
  · simp [hki]
  · have hout : ¬ (i ≤ k ∧ k < i + 1) := by omega
    rw [decide_eq_false hki, decide_eq_false hout, Bool.and_false, Bool.and_false]

theorem hFlagsWord_hFlagsOf (v : Word) : hFlagsWord (hFlagsOf v) = v &&& 0x0003FFFF := by
  simp only [hFlagsWord, hFlagsOf, extractLsb'_zero_eq_and, extractLsb'_shiftLeft_eq_and, flagBit_getLsbD_eq_and,
    Nat.reduceLT, ← BitVec.and_or_distrib_left]
  rfl

theorem hRouteWord_hRouteOf (v : Word) : hRouteWord (hRouteOf v) = v &&& 0x00FFFFFF := by
  simp only [hRouteWord, hRouteOf, extractLsb'_zero_eq_and, extractLsb'_shiftLeft_eq_and,
    ← BitVec.and_or_distrib_left]
  rfl

/-! ### Reserved bits read 0 (R19, R47) -/

/-- A field reads 0 outside its own bits. -/
theorem setWidth_shiftLeft_and {w : Nat} (x : BitVec w) (i : Nat) {m : Word}
    (hm : fieldMask i w &&& m = fieldMask i w) : (x.setWidth 32 <<< i) &&& m = x.setWidth 32 <<< i := by
  have hx : x.setWidth 32 <<< i = (x.setWidth 32 <<< i) &&& fieldMask i w := by
    rw [fieldMask, ← BitVec.shiftLeft_and_distrib, ← BitVec.setWidth_and, BitVec.and_allOnes]
  rw [hx, BitVec.and_assoc, hm]

theorem setWidth_and {w : Nat} (x : BitVec w) {m : Word} (hm : fieldMask 0 w &&& m = fieldMask 0 w) :
    x.setWidth 32 &&& m = x.setWidth 32 := by
  simpa using setWidth_shiftLeft_and x 0 hm

/-- A flag reads 0 outside its own bit. -/
theorem flagBit_and (b : Bool) {i : Nat} {m : Word} (hm : fieldMask i 1 &&& m = fieldMask i 1) :
    flagBit b i &&& m = flagBit b i := by
  cases b
  · exact BitVec.zero_and
  · exact hm

theorem errNumber_shiftLeft_and (e : ErrCode) : errNumber e <<< 8 &&& (0x00000F3F : Word) = errNumber e <<< 8 := by
  cases e <;> rfl

theorem hFlagsWord_and (f : HFlags) : hFlagsWord f &&& 0x0003FFFF = hFlagsWord f := by
  simp only [hFlagsWord, BitVec.and_or_distrib_right]
  rw [setWidth_and _ (by decide), setWidth_shiftLeft_and _ _ (by decide), flagBit_and _ (by decide),
    flagBit_and _ (by decide)]

theorem hRouteWord_and (r : HRoute) : hRouteWord r &&& 0x00FFFFFF = hRouteWord r := by
  simp only [hRouteWord, BitVec.and_or_distrib_right]
  rw [setWidth_and _ (by decide), setWidth_shiftLeft_and _ _ (by decide), setWidth_shiftLeft_and _ _ (by decide)]

theorem statusWord_and (s : State) : statusWord s &&& 0x00000F3F = statusWord s := by
  simp only [statusWord, BitVec.and_or_distrib_right, errNumber_shiftLeft_and]
  rw [flagBit_and _ (by decide), flagBit_and _ (by decide), flagBit_and _ (by decide), flagBit_and _ (by decide),
    flagBit_and _ (by decide), flagBit_and _ (by decide)]

theorem configWord_and (b : Build) : configWord b &&& 0x00000003 = configWord b := by
  simp only [configWord, BitVec.and_or_distrib_right]
  rw [flagBit_and _ (by decide), flagBit_and _ (by decide)]

/-! ### The RW registers (R47) -/

/-- The named bits of a register the host can write; no value for any other target. -/
def namedBits : Target → Option Word
  | .hDest | .hSender | .hId => some 0xFFFFFFFF
  | .hFlags => some 0x0003FFFF
  | .hRoute => some 0x00FFFFFF
  | .pktLen | .srcOff | .srcLen | .dstOff | .dstLen => some 0x000001FF
  | .nameLen | .pskLen => some 0x000000FF
  | .keyLen => some 0x0000003F
  | .cmd | .status | .config | .result | .buffer _ | .unmapped => none

/-- `namedBits` is the table `rwRegisters`. -/
theorem namedBits_targetOf {a : Offset} {mask : Word} (h : (a, mask) ∈ rwRegisters) :
    namedBits (targetOf a) = some mask := by
  have table : rwRegisters.map (fun p => namedBits (targetOf p.1)) = rwRegisters.map (fun p => some p.2) := rfl
  exact List.map_inj_left.mp table _ h

theorem readTarget_and {t : Target} {mask : Word} (h : namedBits t = some mask) (s : State) :
    readTarget s t &&& mask = readTarget s t := by
  cases t <;> cases h
  case hDest | hSender | hId => exact BitVec.and_allOnes
  case hFlags => exact hFlagsWord_and _
  case hRoute => exact hRouteWord_and _
  all_goals exact setWidth_and _ (by decide)

theorem readTarget_writeIdle {t : Target} {mask : Word} (h : namedBits t = some mask) (s : State) (v : Word) :
    readTarget (writeIdle s v t) t = v &&& mask := by
  cases t <;> cases h
  case hDest | hSender | hId => exact BitVec.and_allOnes.symm
  case hFlags => exact hFlagsWord_hFlagsOf v
  case hRoute => exact hRouteWord_hRouteOf v
  all_goals exact setWidth_setWidth_eq_and v (by decide)

/-- A write to an RW register stays out of the buffers and of STATUS. -/
theorem writeIdle_mem_status {t : Target} {mask : Word} (h : namedBits t = some mask) (s : State) (v : Word) :
    (writeIdle s v t).mem = s.mem ∧ (writeIdle s v t).status = s.status := by
  cases t <;> cases h <;> exact ⟨rfl, rfl⟩

theorem hostWrite_namedBits {a : Offset} {mask : Word} (h : namedBits (targetOf a) = some mask) {s : State}
    (hb : s.busy = false) (v : Word) : hostWrite a v s = .next (writeIdle s v (targetOf a)) := by
  refine hostWrite_idle v (fun ha => ?_) hb
  subst ha
  cases h

/-- Settles O16: the RW registers by their named bits, the RO registers by the masks of their words; a write to an RO
register is a write to the idle block that stores nothing. -/
theorem registerWriteReadsBackItsNamedBits : Obligations.RegisterWriteReadsBackItsNamedBits := by
  refine ⟨fun s a mask v hmem => ?_, fun s => ⟨rfl, statusWord_and s, configWord_and s.build⟩, fun s v hb => ?_⟩
  · have hbits := namedBits_targetOf hmem
    refine ⟨readTarget_and hbits s, fun hb => ?_⟩
    obtain ⟨hm, hst⟩ := writeIdle_mem_status hbits s v
    exact ⟨_, hostWrite_namedBits hbits hb v, readTarget_writeIdle hbits s v, hm, hst, writeIdle_ctx s v _,
      by rw [writeIdle_inflight, s.busy_eq_false.mp hb]⟩
  · exact ⟨hostWrite_idle v (by decide) hb, hostWrite_idle v (by decide) hb⟩

/-! ### The words of the buffers (R49) -/

theorem readWindow_buffer {a : Offset} (h : targetOf a = .buffer a.toNat) (s : State) :
    readWindow s a = readLe32 s.mem a.toNat := by
  rw [readWindow, h, readTarget]

/-- The bytes of a stored word are the bytes of the value, least significant first. -/
theorem readBytes_writeBytes_le32bytes {m : Memory} (hm : m.wf) (a : Nat) (v : Word) :
    readBytes (writeBytes m a (le32bytes v)) a 4 = le32bytes v :=
  readBytes_writeBytes hm a (le32bytes v)

theorem hostWrite_buffer {a : Offset} (h : targetOf a = .buffer a.toNat) {s : State} (hb : s.busy = false) (v : Word) :
    hostWrite a v s = .next (s.storeBytes a.toNat (le32bytes v)) := by
  have ha : a ≠ 0 := fun ha => by
    rw [ha, targetOf_zero] at h
    cases h
  rw [hostWrite_idle v ha hb, h]
  rfl

/-- Settles O18: an aligned buffer offset names its own word, which a read takes from its four bytes and a write
stores as four bytes. -/
theorem bufferWordsAreLittleEndian : Obligations.BufferWordsAreLittleEndian := by
  intro s a h4 hl hu
  have htarget := targetOf_buffer h4 hl hu
  have hread (t : State) : (readWindow t a).toNat = leNat (readBytes t.mem a.toNat 4) := by
    rw [readWindow_buffer htarget, readLe32_toNat]
  refine ⟨hread s, fun hwf hb v => ?_⟩
  have hbytes : leNat (readBytes (s.storeBytes a.toNat (le32bytes v)).mem a.toNat 4) = v.toNat := by
    rw [State.storeBytes_mem, readBytes_writeBytes_le32bytes hwf, leNat_le32bytes]
  exact ⟨_, hostWrite_buffer htarget hb v, hbytes, BitVec.eq_of_toNat_eq ((hread _).trans hbytes),
    fun k hk => readByte_writeBytes_other s.mem _ _ (by simpa using hk), rfl, rfl, rfl⟩

/-! ### Offsets that name nothing (R42, R45, R46) -/

/-- Only mapped offsets name something: each register stands below 0x044 and each buffer word within the buffers. -/
theorem mappedOffset_of_targetOf {a : Offset} (h : targetOf a ≠ .unmapped) : MappedOffset a := by
  have h4 : a.toNat % 4 = 0 := by_contra fun h4 => h (targetOf_misaligned h4)
  have hat := mappedAt_targetOf h
  refine ⟨h4, ?_⟩
  cases ht : targetOf a with
  | buffer n =>
    obtain ⟨rfl, _, hl, hu⟩ := targetOf_eq_buffer ht
    exact .inr ⟨hl, hu⟩
  | unmapped => exact absurd ht h
  | _ =>
    rw [ht, mappedAt] at hat
    omega

theorem targetOf_unmapped {a : Offset} (h : ¬ MappedOffset a) : targetOf a = .unmapped :=
  by_contra fun hne => h (mappedOffset_of_targetOf hne)

/-- Settles O19: an offset outside the map names nothing, so a read finds 0 and a write to the idle block stores
nothing; while busy the write is rejected as every other. -/
theorem unmappedOffsetsReadZeroAndIgnoreWrites : Obligations.UnmappedOffsetsReadZeroAndIgnoreWrites := by
  intro s a v h
  have hread : readWindow s a = 0 := by rw [readWindow, targetOf_unmapped h, readTarget]
  have ha : a ≠ 0 := fun ha => h (ha ▸ by decide)
  refine ⟨hread, ?_, fun hb => ?_, hostWrite_busy v ha⟩
  · rw [hostTransaction, hread]
    rfl
  · rw [hostWrite_idle v ha hb, targetOf_unmapped h]
    rfl

end Sys2Proof.Machine
end

section
/-! SUPPORT. The family of the encoding: the opcode map (R62). -/

namespace Sys2Proof

open Laws.RoundTrip

/-- Settles O1 from the family RoundTrip: each word of the map is the encoding of the command it names, and the word
0x0000001F is the encoding of the illegal command with RSVD = 1 and OP = 0xF (R61, R63). -/
theorem opcodeMapDecodes : Obligations.OpcodeMapDecodes :=
  ⟨illegal0 rfl, hdrParse rfl, hdrSerialize rfl,
    chHash rfl, pskDerive rfl, ctrBuild rfl,
    ctrApply rfl, ctrApplyTo rfl, illegal8 rfl,
    illegal9 rfl, illegalA rfl, illegalB rfl,
    illegalC rfl, illegalD rfl, illegalE rfl,
    sreset rfl, illegalRsvd 1 0xF rfl⟩

end Sys2Proof
end

section
/-! SUPPORT. The family of the header codec: the flags byte as a sum of its fields (R70, R71), and the commands
HDR_PARSE (R72) and HDR_SERIALIZE (R73). -/

namespace Sys2Proof.Machine

/-! ### The fields of the flags byte (R70) -/

/-- Three bits of a byte, taken out as a number. -/
theorem toNat_threeBits (f : Byte) (i : Nat) : ((f.extractLsb' i 3).setWidth 8).toNat = f.toNat / 2 ^ i % 8 := by
  rw [BitVec.toNat_setWidth_of_le (by decide), BitVec.extractLsb'_toNat, Nat.shiftRight_eq_div_pow]

theorem decodeFlags_hopLimit (layout : FlagLayout) (f : Byte) :
    (decodeFlags layout f).hopLimit.toNat = f.toNat % 8 := by
  have h := toNat_threeBits f 0
  rw [pow_zero, Nat.div_one] at h
  cases layout <;> exact h

theorem decodeFlags_upstream_hopStart (f : Byte) : (decodeFlags .upstream f).hopStart.toNat = f.toNat / 32 := by
  have hlt : f.toNat / 32 < 8 := by omega
  exact (toNat_threeBits f 5).trans (Nat.mod_eq_of_lt hlt)

theorem decodeFlags_docProse_hopStart (f : Byte) : (decodeFlags .docProse f).hopStart.toNat = f.toNat / 8 % 8 :=
  toNat_threeBits f 3

/-! ### The flags byte as a sum (R71) -/

/-- A field of the flags byte stands for its number times the weight of its lowest bit. -/
theorem toNat_setWidth_shiftLeft {w : Nat} (x : BitVec w) (i : Nat) (hw : i + w ≤ 8) :
    (x.setWidth 8 <<< i).toNat = 2 ^ i * x.toNat := by
  have hfits : 2 ^ i * x.toNat < 2 ^ 8 :=
    calc 2 ^ i * x.toNat < 2 ^ i * 2 ^ w := by gcongr; exact x.isLt
      _ = 2 ^ (i + w) := (pow_add 2 i w).symm
      _ ≤ 2 ^ 8 := Nat.pow_le_pow_right (by decide) hw
  rw [BitVec.toNat_shiftLeft, BitVec.toNat_setWidth_of_le (by omega), Nat.shiftLeft_eq, Nat.mul_comm,
    Nat.mod_eq_of_lt hfits]

theorem toNat_ofBool_eq_bitNat (b : Bool) : (BitVec.ofBool b).toNat = bitNat b := by
  cases b <;> rfl

theorem encodeFlags_upstream_toNat (hl hs : BitVec 3) (wa vm : Bool) :
    (encodeFlags .upstream hl hs wa vm).toNat = hl.toNat + 8 * bitNat wa + 16 * bitNat vm + 32 * hs.toNat := by
  have hwa := bitNat_le wa
  have hvm := bitNat_le vm
  simp only [encodeFlags, BitVec.toNat_or]
  rw [toNat_setWidth_shiftLeft _ 3 (by decide), toNat_setWidth_shiftLeft _ 4 (by decide),
    toNat_setWidth_shiftLeft _ 5 (by decide), BitVec.toNat_setWidth_of_le (by decide), toNat_ofBool_eq_bitNat,
    toNat_ofBool_eq_bitNat, or_eq_add 3 (by omega), or_eq_add 4 (by omega), or_eq_add 5 (by omega)]
  rfl

theorem encodeFlags_docProse_toNat (hl hs : BitVec 3) (wa vm : Bool) :
    (encodeFlags .docProse hl hs wa vm).toNat = hl.toNat + 8 * hs.toNat + 64 * bitNat wa + 128 * bitNat vm := by
  have hwa := bitNat_le wa
  simp only [encodeFlags, BitVec.toNat_or]
  rw [toNat_setWidth_shiftLeft _ 3 (by decide), toNat_setWidth_shiftLeft _ 6 (by decide),
    toNat_setWidth_shiftLeft _ 7 (by decide), BitVec.toNat_setWidth_of_le (by decide), toNat_ofBool_eq_bitNat,
    toNat_ofBool_eq_bitNat, or_eq_add 3 (by omega), or_eq_add 6 (by omega), or_eq_add 7 (by omega)]
  rfl

/-! ### HDR_PARSE (R72) -/

/-- Settles O32: the three numbers are `readLe32_toNat`, the flags byte is read by the layout of the build, and the
writes of the command's success are those of `execHdrParse_ok`. -/
theorem hdrParseReadsTheWireHeader : Obligations.HdrParseReadsTheWireHeader := by
  refine ⟨rfl, ?_⟩
  intro s x f
  refine ⟨execHdrParse_error, fun hlen => ?_⟩
  refine ⟨_, execHdrParse_ok hlen, ⟨rfl, rfl⟩, readLe32_toNat x.mem 0x100, readLe32_toNat x.mem 0x104,
    readLe32_toNat x.mem 0x108, decodeFlags_hopLimit _ _, fun hlayout => ?_, fun hlayout => ?_,
    rfl, rfl, rfl, rfl, rfl, rfl, rfl⟩
  · rw [hlayout]
    exact ⟨decodeFlags_upstream_hopStart _, rfl, rfl⟩
  · rw [hlayout]
    exact ⟨decodeFlags_docProse_hopStart _, rfl, rfl⟩

/-! ### The wire image in the buffer (R73) -/

/-- A part of a byte string is read back where it was written. -/
theorem readBytes_writeBytes_part {m : Memory} (hm : m.wf) (a : Nat) (bs : List Byte) {j n : Nat}
    (h : j + n ≤ bs.length) : readBytes (writeBytes m a bs) (a + j) n = (bs.drop j).take n := by
  apply List.ext_getElem
  · rw [length_readBytes, List.length_take, List.length_drop]
    omega
  · intro k hk _
    rw [length_readBytes] at hk
    rw [getElem_readBytes, Nat.add_assoc, readByte_writeBytes_same hm a bs (by omega), List.getElem_take,
      List.getElem_drop]

/-- A hop count within the 3-bit range loses nothing when it is cut to three bits. -/
theorem toNat_setWidth_three {x : Byte} (h : x.toNat ≤ 7) : (x.setWidth 3).toNat = x.toNat := by
  rw [BitVec.toNat_setWidth, Nat.mod_eq_of_lt (Nat.lt_succ_of_le h)]

section ReadBack

variable {m m' : Memory} {layout : FlagLayout} {r : Regs} {a j : Nat}

/-- A number of the wire header is read back from its four bytes of the stored image. -/
theorem leNat_readBytes_wireImage (hm : m.wf) (hm' : m' = writeBytes m pktBase (wireImage layout r)) {v : Word}
    (ha : a = pktBase + j) (h : j + 4 ≤ 16) (hv : ((wireImage layout r).drop j).take 4 = le32bytes v) :
    leNat (readBytes m' a 4) = v.toNat := by
  rw [hm', ha, readBytes_writeBytes_part hm _ _ (by rwa [length_wireImage]), hv, leNat_le32bytes]

/-- A byte of the wire header is read back from the stored image. -/
theorem readByte_wireImage (hm : m.wf) (hm' : m' = writeBytes m pktBase (wireImage layout r)) {b : Byte}
    (ha : a = pktBase + j) (hb : (wireImage layout r)[j]? = some b) : readByte m' a = b := by
  obtain ⟨hj, hget⟩ := List.getElem?_eq_some_iff.mp hb
  rw [hm', ha, readByte_writeBytes_same hm _ _ hj, hget]

end ReadBack

/-! ### HDR_SERIALIZE (R73) -/

/-- HDR_SERIALIZE within the 3-bit range stores the wire image and sets RESULT. -/
theorem hdrSerialize_stores_wireImage {s : State} (hl : s.inputs.regs.hFlags.hopLimit.toNat ≤ 7)
    (hs : s.inputs.regs.hFlags.hopStart.toNat ≤ 7) :
    ∃ t, exec .hdrSerialize s = .next t ∧ Succeeded s t ∧
      t.mem = writeBytes s.mem pktBase (wireImage s.build.flagLayout s.inputs.regs) ∧
      t.regs = { s.regs with result := 16 } ∧ t.ctx = s.ctx := by
  refine ⟨_, execHdrSerialize_ok hl hs, ⟨?_, ?_⟩, ?_, ?_, ?_⟩ <;> simp

/-- Settles O33: the buffer holds the wire image, whose parts are read back each by its place, and the flags byte is
the sum of its fields since both hop counts fit three bits. -/
theorem hdrSerializeWritesTheWireHeader : Obligations.HdrSerializeWritesTheWireHeader := by
  refine ⟨rfl, ?_⟩
  intro s hwf r hl hs
  refine ⟨execHdrSerialize_error, fun hlimit hstart => ?_⟩
  obtain ⟨t, hexec, hdone, hmem, hregs, hctx⟩ := hdrSerialize_stores_wireImage hlimit hstart
  have hflags := readByte_wireImage hwf hmem (a := 0x10C) (j := 12) rfl rfl
  refine ⟨t, hexec, hdone,
    leNat_readBytes_wireImage hwf hmem (j := 0) rfl (by decide) rfl,
    leNat_readBytes_wireImage hwf hmem (j := 4) rfl (by decide) rfl,
    leNat_readBytes_wireImage hwf hmem (j := 8) rfl (by decide) rfl,
    fun hlayout => ?_, fun hlayout => ?_,
    readByte_wireImage hwf hmem (j := 13) rfl rfl,
    readByte_wireImage hwf hmem (j := 14) rfl rfl,
    readByte_wireImage hwf hmem (j := 15) rfl rfl,
    hregs, fun k hk => ?_, hctx⟩
  · rw [hflags, hlayout, encodeFlags_upstream_toNat, toNat_setWidth_three hlimit, toNat_setWidth_three hstart]
  · rw [hflags, hlayout, encodeFlags_docProse_toNat, toNat_setWidth_three hlimit, toNat_setWidth_three hstart]
  · rw [hmem, readByte_writeBytes_other s.mem pktBase _ hk]

end Sys2Proof.Machine
end

section
/-! SUPPORT. The family of the channel hash: the XOR fold bit by bit, and the command CH_HASH (R75). -/

namespace Sys2Proof.Machine

/-! ### The XOR fold as a parity (R75) -/

theorem decide_odd_succ (n : Nat) : decide ((n + 1) % 2 = 1) = !decide (n % 2 = 1) := by
  rw [← decide_not, decide_eq_decide]
  omega

/-- A bit of a XOR fold from any seed: the seed's bit, flipped once for each byte with that bit set. -/
theorem getLsbD_foldl_xor (bs : List Byte) (seed : Byte) (k : Nat) :
    (bs.foldl (· ^^^ ·) seed).getLsbD k =
      (seed.getLsbD k ^^ decide (bs.countP (fun b => b.getLsbD k) % 2 = 1)) := by
  induction bs generalizing seed with
  | nil => simp
  | cons b bs ih =>
    rw [List.foldl_cons, ih, BitVec.getLsbD_xor, Bool.xor_assoc, List.countP_cons]
    cases b.getLsbD k with
    | false => simp
    | true => rw [if_pos rfl, decide_odd_succ, Bool.true_xor]

theorem getLsbD_xorFold (bs : List Byte) (k : Nat) :
    (xorFold bs).getLsbD k = decide (bs.countP (fun b => b.getLsbD k) % 2 = 1) := by
  rw [xorFold, getLsbD_foldl_xor, BitVec.ofNat_eq_ofNat, BitVec.getLsbD_zero, Bool.false_xor]

/-- Zero-extension to a word adds no bit, at any index. -/
theorem getLsbD_setWidth_word (b : Byte) (k : Nat) : (b.setWidth 32).getLsbD k = b.getLsbD k := by
  rw [← BitVec.setWidth'_eq (by decide), BitVec.getLsbD_setWidth']

/-! ### CH_HASH (R75) -/

/-- Settles O36: the length limits are those of `execChHash_error` and `execChHash_ok`, the bytes folded are
`hashBytes`, and each bit of their fold is a parity. -/
theorem chHashFoldsNameAndKey : Obligations.ChHashFoldsNameAndKey := by
  refine ⟨rfl, ?_⟩
  intro s x bytes
  refine ⟨execChHash_error, fun hname hkey => ?_⟩
  refine ⟨_, execChHash_ok hname hkey, ⟨rfl, rfl⟩, rfl, fun k => ?_, rfl, rfl, rfl⟩
  rw [State.succeed_regs, getLsbD_setWidth_word, getLsbD_xorFold]
  rfl

end Sys2Proof.Machine
end

section
/-! SUPPORT. The family of the key deriver: base64 decoding and encoding as each other's inverse (R68, R78), and the
command PSK_DERIVE by the length of the decoded text (R79). -/

namespace Sys2Proof.Machine

/-! ### The alphabet (R68) -/

theorem b64Value_b64Char_toNat : ∀ v : BitVec 6, b64Value (b64Char v.toNat) = some v := by
  decide

theorem b64Value_b64Char {n : Nat} (h : n < 64) : b64Value (b64Char n) = some (BitVec.ofNat 6 n) := by
  have hv := b64Value_b64Char_toNat (BitVec.ofNat 6 n)
  rwa [BitVec.toNat_ofNat, Nat.mod_eq_of_lt h] at hv

theorem b64Char_of_b64Value {c : Byte} {v : BitVec 6} (h : b64Value c = some v) : b64Char v.toNat = c := by
  have table : ∀ c : Byte, ∀ v ∈ b64Value c, b64Char v.toNat = c := by decide
  exact table c v h

/-- No data character is the pad character. -/
theorem b64Char_ne_b64Pad {n : Nat} (h : n < 64) : b64Char n ≠ b64Pad := by
  intro hpad
  have hv := b64Value_b64Char h
  rw [hpad] at hv
  cases hv

/-! ### The bytes of a group as numbers (R78) -/

/-- A byte put together from a high and a low part is the sum of the parts. -/
theorem toNat_shiftLeft_or {x y : Byte} {m n : Nat} (i : Nat) (hx : x.toNat = m) (hy : y.toNat = n)
    (hm : 2 ^ i * m < 256) (hn : n < 2 ^ i) : (x <<< i ||| y).toNat = 2 ^ i * m + n := by
  subst hx hy
  rw [BitVec.toNat_or, BitVec.toNat_shiftLeft, Nat.shiftLeft_eq, Nat.mul_comm, Nat.mod_eq_of_lt hm, Nat.or_comm,
    or_eq_add i hn, Nat.add_comm]

theorem toNat_and_lowMask {w : Nat} (x : BitVec w) {k : Nat} (hk : k ≤ w) :
    (x &&& BitVec.ofNat w (2 ^ k - 1)).toNat = x.toNat % 2 ^ k := by
  have hmask : 2 ^ k - 1 < 2 ^ w :=
    Nat.lt_of_lt_of_le (Nat.sub_one_lt (Nat.two_pow_pos k).ne') (Nat.pow_le_pow_right (by decide) hk)
  rw [BitVec.toNat_and, BitVec.toNat_ofNat, Nat.mod_eq_of_lt hmask, Nat.and_two_pow_sub_one_eq_mod]

theorem toNat_sextet (v : BitVec 6) : (v.setWidth 8).toNat = v.toNat :=
  BitVec.toNat_setWidth_of_le (by decide)

theorem toNat_sextet_ushiftRight (v : BitVec 6) (i : Nat) : (v.setWidth 8 >>> i).toNat = v.toNat / 2 ^ i := by
  rw [BitVec.toNat_ushiftRight, toNat_sextet, Nat.shiftRight_eq_div_pow]

theorem toNat_sextet_and_lowMask (v : BitVec 6) {k : Nat} (hk : k ≤ 8) :
    (v.setWidth 8 &&& BitVec.ofNat 8 (2 ^ k - 1)).toNat = v.toNat % 2 ^ k := by
  rw [toNat_and_lowMask _ hk, toNat_sextet]

theorem toNat_b64Byte0 (v0 v1 : BitVec 6) : (b64Byte0 v0 v1).toNat = 4 * v0.toNat + v1.toNat / 16 :=
  toNat_shiftLeft_or 2 (toNat_sextet v0) (toNat_sextet_ushiftRight v1 4) (by omega) (by omega)

theorem toNat_b64Byte1 (v1 v2 : BitVec 6) : (b64Byte1 v1 v2).toNat = 16 * (v1.toNat % 16) + v2.toNat / 4 :=
  toNat_shiftLeft_or 4 (toNat_sextet_and_lowMask v1 (k := 4) (by decide)) (toNat_sextet_ushiftRight v2 2) (by omega)
    (by omega)

theorem toNat_b64Byte2 (v2 v3 : BitVec 6) : (b64Byte2 v2 v3).toNat = 64 * (v2.toNat % 4) + v3.toNat :=
  toNat_shiftLeft_or 6 (toNat_sextet_and_lowMask v2 (k := 2) (by decide)) (toNat_sextet v3) (by omega) v3.isLt

/-- The unused bits of a last data character, as R78 tests them, are a remainder. -/
theorem and_lowMask_eq_zero_iff (v : BitVec 6) {k : Nat} (hk : k ≤ 6) :
    v &&& BitVec.ofNat 6 (2 ^ k - 1) = 0#6 ↔ v.toNat % 2 ^ k = 0 := by
  rw [← BitVec.toNat_inj, toNat_and_lowMask v hk, BitVec.toNat_ofNat, Nat.zero_mod]

/-! ### What a group decodes to (R78) -/

section Groups

variable {q0 q1 q2 q3 : Byte} {d : List Byte}

theorem b64Group0_eq_some_iff : b64Group0 q0 q1 q2 q3 = some d ↔
    ∃ v0, b64Value q0 = some v0 ∧ ∃ v1, b64Value q1 = some v1 ∧ ∃ v2, b64Value q2 = some v2 ∧
      ∃ v3, b64Value q3 = some v3 ∧ [b64Byte0 v0 v1, b64Byte1 v1 v2, b64Byte2 v2 v3] = d := by
  simp only [b64Group0, Option.bind_eq_bind, Option.bind_eq_some_iff, Option.some.injEq]

theorem b64Group1_eq_some_iff : b64Group1 q0 q1 q2 = some d ↔
    ∃ v0, b64Value q0 = some v0 ∧ ∃ v1, b64Value q1 = some v1 ∧ ∃ v2, b64Value q2 = some v2 ∧
      v2.toNat % 4 = 0 ∧ [b64Byte0 v0 v1, b64Byte1 v1 v2] = d := by
  have hunused (v : BitVec 6) : v &&& 0x03#6 = 0#6 ↔ v.toNat % 4 = 0 :=
    and_lowMask_eq_zero_iff v (k := 2) (by decide)
  simp only [b64Group1, Option.bind_eq_bind, Option.bind_eq_some_iff, Option.ite_none_left_eq_some, ne_eq, not_not,
    hunused, Option.some.injEq]

theorem b64Group2_eq_some_iff : b64Group2 q0 q1 = some d ↔
    ∃ v0, b64Value q0 = some v0 ∧ ∃ v1, b64Value q1 = some v1 ∧ v1.toNat % 16 = 0 ∧ [b64Byte0 v0 v1] = d := by
  have hunused (v : BitVec 6) : v &&& 0x0F#6 = 0#6 ↔ v.toNat % 16 = 0 :=
    and_lowMask_eq_zero_iff v (k := 4) (by decide)
  simp only [b64Group2, Option.bind_eq_bind, Option.bind_eq_some_iff, Option.ite_none_left_eq_some, ne_eq, not_not,
    hunused, Option.some.injEq]

end Groups

/-! ### Decoding what was encoded (R78) -/

theorem b64Group0_encode (a b c : Byte) :
    b64Group0 (b64Char (a.toNat / 4)) (b64Char (a.toNat % 4 * 16 + b.toNat / 16))
      (b64Char (b.toNat % 16 * 4 + c.toNat / 64)) (b64Char (c.toNat % 64)) = some [a, b, c] := by
  refine b64Group0_eq_some_iff.mpr ⟨_, b64Value_b64Char (by omega), _, b64Value_b64Char (by omega),
    _, b64Value_b64Char (by omega), _, b64Value_b64Char (by omega), ?_⟩
  simp only [List.cons.injEq, and_true, ← BitVec.toNat_inj, toNat_b64Byte0, toNat_b64Byte1, toNat_b64Byte2,
    BitVec.toNat_ofNat]
  omega

theorem b64Group1_encode (a b : Byte) :
    b64Group1 (b64Char (a.toNat / 4)) (b64Char (a.toNat % 4 * 16 + b.toNat / 16)) (b64Char (b.toNat % 16 * 4)) =
      some [a, b] := by
  refine b64Group1_eq_some_iff.mpr ⟨_, b64Value_b64Char (by omega), _, b64Value_b64Char (by omega),
    _, b64Value_b64Char (by omega), ?_⟩
  simp only [List.cons.injEq, and_true, ← BitVec.toNat_inj, toNat_b64Byte0, toNat_b64Byte1, BitVec.toNat_ofNat]
  omega

theorem b64Group2_encode (a : Byte) :
    b64Group2 (b64Char (a.toNat / 4)) (b64Char (a.toNat % 4 * 16)) = some [a] := by
  refine b64Group2_eq_some_iff.mpr ⟨_, b64Value_b64Char (by omega), _, b64Value_b64Char (by omega), ?_⟩
  simp only [List.cons.injEq, and_true, ← BitVec.toNat_inj, toNat_b64Byte0, BitVec.toNat_ofNat]
  omega

/-- A group without a pad character decodes by itself, wherever it stands. -/
theorem b64decode_dataGroup {q0 q1 q2 q3 : Byte} (h : q3 ≠ b64Pad) (rest : List Byte) :
    b64decode (q0 :: q1 :: q2 :: q3 :: rest) =
      (b64Group0 q0 q1 q2 q3).bind fun group => (b64decode rest).map (group ++ ·) := by
  cases rest with
  | nil => simp [b64decode, b64LastGroup, h]
  | cons q rest =>
    rw [b64decode]
    cases b64decode (q :: rest) <;> rfl

theorem b64decode_b64encode (d : List Byte) : b64decode (b64encode d) = some d := by
  induction d using b64encode.induct with
  | case1 => rfl
  | case2 a => exact b64Group2_encode a
  | case3 a b =>
    have hdata : b64Char (b.toNat % 16 * 4) ≠ b64Pad := b64Char_ne_b64Pad (by omega)
    rw [b64encode, b64decode, b64LastGroup, if_neg (fun h => hdata h.1), if_pos rfl, b64Group1_encode]
  | case4 a b c rest ih =>
    have hdata : b64Char (c.toNat % 64) ≠ b64Pad := b64Char_ne_b64Pad (by omega)
    rw [b64encode, List.cons_append, List.cons_append, List.cons_append, List.cons_append, List.nil_append,
      b64decode_dataGroup hdata, b64Group0_encode, ih]
    rfl

/-! ### Encoding what was decoded (R78) -/

theorem b64encode_of_b64Group0 {q0 q1 q2 q3 : Byte} {d : List Byte} (h : b64Group0 q0 q1 q2 q3 = some d)
    (t : List Byte) : b64encode (d ++ t) = q0 :: q1 :: q2 :: q3 :: b64encode t := by
  obtain ⟨v0, h0, v1, h1, v2, h2, v3, h3, rfl⟩ := b64Group0_eq_some_iff.mp h
  rw [← b64Char_of_b64Value h0, ← b64Char_of_b64Value h1, ← b64Char_of_b64Value h2, ← b64Char_of_b64Value h3]
  simp only [List.cons_append, List.nil_append, b64encode, toNat_b64Byte0, toNat_b64Byte1, toNat_b64Byte2]
  congr <;> omega

theorem b64encode_of_b64Group1 {q0 q1 q2 : Byte} {d : List Byte} (h : b64Group1 q0 q1 q2 = some d) :
    b64encode d = [q0, q1, q2, b64Pad] := by
  obtain ⟨v0, h0, v1, h1, v2, h2, hunused, rfl⟩ := b64Group1_eq_some_iff.mp h
  rw [← b64Char_of_b64Value h0, ← b64Char_of_b64Value h1, ← b64Char_of_b64Value h2]
  simp only [b64encode, toNat_b64Byte0, toNat_b64Byte1]
  congr <;> omega

theorem b64encode_of_b64Group2 {q0 q1 : Byte} {d : List Byte} (h : b64Group2 q0 q1 = some d) :
    b64encode d = [q0, q1, b64Pad, b64Pad] := by
  obtain ⟨v0, h0, v1, h1, hunused, rfl⟩ := b64Group2_eq_some_iff.mp h
  rw [← b64Char_of_b64Value h0, ← b64Char_of_b64Value h1]
  simp only [b64encode, toNat_b64Byte0]
  congr <;> omega

theorem b64encode_of_b64LastGroup {q0 q1 q2 q3 : Byte} {d : List Byte} (h : b64LastGroup q0 q1 q2 q3 = some d) :
    b64encode d = [q0, q1, q2, q3] := by
  rw [b64LastGroup] at h
  split at h
  next hpads =>
    obtain ⟨rfl, rfl⟩ := hpads
    exact b64encode_of_b64Group2 h
  split at h
  next hpad =>
    rw [hpad]
    exact b64encode_of_b64Group1 h
  next => simpa [b64encode] using b64encode_of_b64Group0 h []

theorem b64encode_of_b64decode {text d : List Byte} (h : b64decode text = some d) : b64encode d = text := by
  induction text using b64decode.induct generalizing d with
  | case1 =>
    cases h
    rfl
  | case2 q0 q1 q2 q3 => exact b64encode_of_b64LastGroup h
  | case3 q0 q1 q2 q3 q rest ih =>
    simp only [b64decode, Option.bind_eq_bind, Option.bind_eq_some_iff, Option.some.injEq] at h
    obtain ⟨group, hgroup, tail, htail, rfl⟩ := h
    rw [b64encode_of_b64Group0 hgroup, ih htail]
  | case4 text hnil hgroup =>
    rw [b64decode] at h
    · cases h
    · exact hnil
    · exact hgroup

/-- Settles O39: `b64encode` is an inverse of `b64decode` on both sides. -/
theorem base64DecodesExactlyTheCanonicalTexts : Obligations.Base64DecodesExactlyTheCanonicalTexts := by
  intro text d
  constructor
  · exact b64encode_of_b64decode
  · rintro rfl
    exact b64decode_b64encode d

/-! ### PSK_DERIVE (R79) -/

/-- A key of 2 to 15 bytes is padded; one of 16 bytes is padded by nothing. -/
theorem pskKey_leftPadded16 (dk : Vector Byte 16) {d : List Byte} (h2 : 2 ≤ d.length) (h16 : d.length ≤ 16) :
    pskKey dk d = .key (zeros (16 - d.length) ++ d) := by
  rcases Nat.lt_or_eq_of_le h16 with hlt | heq
  · rw [pskKey, if_neg (by omega), if_neg (by omega), if_neg (by omega), if_pos (by omega)]
  · simp [pskKey, heq, zeros]

/-- A key of 17 to 31 bytes is padded; one of 32 bytes is padded by nothing. -/
theorem pskKey_leftPadded32 (dk : Vector Byte 16) {d : List Byte} (h17 : 17 ≤ d.length) (h32 : d.length ≤ 32) :
    pskKey dk d = .key (zeros (32 - d.length) ++ d) := by
  rcases Nat.lt_or_eq_of_le h32 with hlt | heq
  · rw [pskKey, if_neg (by omega), if_neg (by omega), if_neg (by omega), if_neg (by omega), if_pos (by omega)]
  · simp [pskKey, heq, zeros]

theorem pskKey_oneByte (dk : Vector Byte 16) {v : Byte} (hv : v ≠ 0x00) :
    pskKey dk [v] = .key (dk.toList.take 15 ++ [dk[15] + v - 1]) := by
  have hkey : pskKey dk [v] = .key (modifiedDefault dk v) := if_neg hv
  have hlast : dk.toList.getD 15 0 = dk[15] := by simp
  rw [hkey, modifiedDefault, hlast]
  rfl

theorem pskKey_tooLong (dk : Vector Byte 16) {d : List Byte} (h : 33 ≤ d.length) :
    pskKey dk d = .error .unsupportedKeyLength := by
  rw [pskKey, if_neg (by omega), if_neg (by omega), if_neg (by omega), if_neg (by omega), if_neg (by omega)]

/-- `finishDerive` writes what `DerivesKey` says. -/
theorem derivesKey_of_finishDerive {s : State} {k : List Byte} (hwf : s.mem.wf) (hk : k.length ≤ 32)
    (h : execPskDerive s = .next (finishDerive s k)) : DerivesKey s k := by
  have hlen : (k ++ zeros (keySize - k.length)).length = 32 := by
    rw [List.length_append, length_zeros, keySize]
    omega
  have hread := readBytes_writeBytes hwf keyBase (k ++ zeros (keySize - k.length))
  rw [hlen] at hread
  refine ⟨_, h, ⟨rfl, rfl⟩, hread, fun a ha => ?_, ?_, ?_, rfl, rfl⟩
  · exact readByte_writeBytes_other s.mem keyBase _ (by rwa [hlen])
  · simp only [finishDerive, State.succeed_regs, State.setKeyLen_regs, BitVec.toNat_ofNat]
    omega
  · simp only [finishDerive, State.succeed_regs, BitVec.toNat_ofNat]
    omega

/-- Settles O40: the errors before the text decodes are those of `execPskDerive_range` and `execPskDerive_invalid`;
after that `pskKey` decides by the length of the decoded text, and `finishDerive` stores the key. -/
theorem pskDeriveDerivesTheKey : Obligations.PskDeriveDerivesTheKey := by
  refine ⟨rfl, ?_⟩
  intro s hwf x text
  refine ⟨execPskDerive_range, execPskDerive_invalid, fun hlen d hd => ?_⟩
  have hexec := execPskDerive_decoded hlen hd
  have hfails {e : ErrCode} (hk : pskKey s.build.defaultKey d = .error e) : FailsWith .pskDerive s e := by
    rw [hk] at hexec
    exact hexec
  have hderives {k : List Byte} (hk : pskKey s.build.defaultKey d = .key k) : DerivesKey s k := by
    rw [hk] at hexec
    refine derivesKey_of_finishDerive hwf ?_ hexec
    rcases pskKey_length hk with h | h <;> omega
  refine ⟨?_, ?_, ?_, fun h2 h16 => hderives (pskKey_leftPadded16 _ h2 h16),
    fun h17 h32 => hderives (pskKey_leftPadded32 _ h17 h32), fun h33 => hfails (pskKey_tooLong _ h33)⟩
  · rintro rfl
    exact hfails rfl
  · rintro rfl
    exact derivesKey_of_finishDerive hwf (by decide) hexec
  · rintro v rfl hv
    exact hderives (pskKey_oneByte _ hv)

end Sys2Proof.Machine
end

section
/-! SUPPORT. The family of the cipher engine: the nonce (R82), the counter block (R83), and the commands CTR_BUILD
(R85), CTR_APPLY (R86) and CTR_APPLY_TO (R87). -/

namespace Sys2Proof.Machine

/-! ### The nonce (R82) -/

/-- The packet id stands at byte 0, so at weight 1, and the sender at byte 8, so at weight `2 ^ 64`. -/
theorem leNat_nonce (id sender : Word) : leNat (nonce id sender) = id.toNat + 2 ^ 64 * sender.toNat := by
  have hlen : (le32bytes id ++ zeros 4).length = 8 := rfl
  rw [nonce, List.append_assoc, leNat_append (le32bytes id ++ zeros 4), hlen, leNat_append, leNat_append,
    leNat_le32bytes, leNat_le32bytes, leNat_zeros]
  omega

/-- Settles O43: the length is `length_nonce` and the number `leNat_nonce`. -/
theorem nonceIsPacketIdAndSender : Obligations.NonceIsPacketIdAndSender :=
  fun id sender => ⟨length_nonce id sender, leNat_nonce id sender⟩

/-! ### The counter block (R83) -/

/-- `le32(B, i)` read inside the string stands for the four bytes it reads (R11). -/
theorem le32bytes_le32At {b : List Byte} {i : Nat} (h : i + 4 ≤ b.length) :
    le32bytes (le32At b i) = (b.drop i).take 4 := by
  have hget {j : Nat} (hj : j < 4) : b.getD (i + j) 0 = b[i + j] := (List.getElem_eq_getD 0).symm
  rw [le32At, le32bytes_of_le32, hget (j := 1) (by decide), hget (j := 2) (by decide), hget (j := 3) (by decide),
    List.drop_eq_getElem_cons (by omega), List.drop_eq_getElem_cons (by omega), List.drop_eq_getElem_cons (by omega),
    List.drop_eq_getElem_cons (by omega)]
  exact congrArg (· :: _) (hget (j := 0) (by decide))

/-- The counter's bytes count modulo `2 ^ 32`. -/
theorem leNat_counter {b : List Byte} {i : Nat} (h : i + 4 ≤ b.length) (n : Nat) :
    leNat (le32bytes (le32At b i + BitVec.ofNat 32 n)) = (leNat ((b.drop i).take 4) + n) % 2 ^ 32 := by
  rw [leNat_le32bytes, BitVec.toNat_add, BitVec.toNat_ofNat, Nat.add_mod_mod, ← leNat_le32bytes (le32At b i),
    le32bytes_le32At h]

section Positions

variable {n0 : List Byte} (h : n0.length = 16)
include h

theorem counterBlock_low (i : Nat) :
    counterBlock .low n0 i = le32bytes (le32At n0 0 + BitVec.ofNat 32 i) ++ n0.drop 4 := by
  rw [counterBlock, List.take_of_length_le (by rw [List.length_drop, h])]

theorem counterBlock_low_zero : counterBlock .low n0 0 = n0 := by
  rw [counterBlock_low h, BitVec.add_zero, le32bytes_le32At (by omega), List.drop_zero,
    List.take_append_drop]

theorem take_drop_twelve : (n0.drop 12).take 4 = n0.drop 12 :=
  List.take_of_length_le (by rw [List.length_drop, h])

theorem counterBlock_high_zero : counterBlock .high n0 0 = n0 := by
  rw [counterBlock, BitVec.add_zero, le32bytes_le32At (by omega), take_drop_twelve h,
    List.take_append_drop]

end Positions

/-- Settles O44: under each position the block is the counter's four bytes beside the other twelve of N0, and the
counter's bytes are `leNat_counter`. -/
theorem counterBlockCountsModulo32Bits : Obligations.CounterBlockCountsModulo32Bits := by
  intro n0 i h
  have hhead : (n0.take 12).length = 12 := by rw [List.length_take, h]; rfl
  refine ⟨⟨length_counterBlock _ h i, ?_, ?_⟩, ⟨length_counterBlock _ h i, ?_, ?_⟩,
    counterBlock_low_zero h, counterBlock_high_zero h⟩
  · rw [counterBlock_low h, List.take_left' (length_le32bytes _), leNat_counter (by omega), List.drop_zero]
  · rw [counterBlock_low h, List.drop_left' (length_le32bytes _)]
  · rw [counterBlock, List.drop_left' hhead, leNat_counter (by omega), take_drop_twelve h]
  · rw [counterBlock, List.take_left' hhead]

/-! ### CTR_BUILD (R85) -/

/-- Settles O51: the fault is `execCtrBuild_fault`; the context `execCtrBuild_ok` loads has the key bytes filled to 32
with zeros, and its N0 is the nonce, whose number is `leNat_nonce`. -/
theorem ctrBuildLoadsTheContextOrFaults : Obligations.CtrBuildLoadsTheContextOrFaults := by
  refine ⟨rfl, ?_⟩
  intro s x n
  refine ⟨execCtrBuild_fault, fun hn => ?_⟩
  have hkey : (readBytes x.mem keyBase n ++ zeros (32 - n)).length = 32 := by
    rw [List.length_append, length_readBytes, length_zeros]
    omega
  have hn0 := toList_bytesToVector (length_nonce x.regs.hId x.regs.hSender)
  have hresult : (BitVec.ofNat 32 (8 * n)).toNat = 8 * n := by
    rw [BitVec.toNat_ofNat]
    omega
  refine ⟨_, execCtrBuild_ok hn, ⟨rfl, rfl⟩, rfl, rfl, toList_bytesToVector hkey, ?_, hresult, rfl, rfl⟩
  rw [State.succeed_ctx, State.loadContext_ctx, hn0, leNat_nonce]

/-! ### The end of an apply (R86, R87) -/

section Apply

variable {s : State} (pos : CtrPos) (x : Snapshot) (dst : BitVec 9)

theorem readByte_finishApply_region (hwf : s.mem.wf) {j : Nat} (h : j < x.regs.srcLen.toNat) :
    readByte (finishApply s dst (cipherBytes pos x)).mem (0x100 + dst.toNat + j) =
      readByte x.mem (0x100 + x.regs.srcOff.toNat + j) ^^^ specKeyByte pos x.ctx j := by
  have hj : j < (cipherBytes pos x).length := by rwa [length_cipherBytes]
  exact (readByte_writeBytes_same hwf (pktAddr dst) _ hj).trans (getElem_cipherBytes pos x hj)

theorem readByte_finishApply_other {k : Nat}
    (h : k < 0x100 + dst.toNat ∨ 0x100 + dst.toNat + x.regs.srcLen.toNat ≤ k) :
    readByte (finishApply s dst (cipherBytes pos x)).mem k = readByte s.mem k :=
  readByte_writeBytes_other s.mem (pktAddr dst) _ (by rwa [length_cipherBytes])

theorem toNat_result_finishApply :
    (finishApply s dst (cipherBytes pos x)).regs.result.toNat = x.regs.srcLen.toNat := by
  rw [finishApply, State.succeed_regs, length_cipherBytes, BitVec.toNat_ofNat]
  omega

end Apply

/-! ### CTR_APPLY (R86) -/

/-- Settles O52: the errors are those of `execCtrApply_noContext` and `execCtrApply_range`, and the end of a success
is `finishApply` with the source region as its destination. -/
theorem ctrApplyXorsTheKeystreamInPlace : Obligations.CtrApplyXorsTheKeystreamInPlace := by
  refine ⟨rfl, ?_⟩
  intro s hwf x off len
  refine ⟨execCtrApply_noContext, execCtrApply_range, fun hvalid hfits => ?_⟩
  exact ⟨_, execCtrApply_ok hvalid hfits, ⟨rfl, rfl⟩, fun _ => readByte_finishApply_region _ x _ hwf,
    fun _ => readByte_finishApply_other _ x _, rfl, toNat_result_finishApply _ x _, rfl⟩

/-! ### CTR_APPLY_TO (R87) -/

/-- Settles O53: the errors are those of `execCtrApplyTo_noContext`, `execCtrApplyTo_mismatch` and
`execCtrApplyTo_range`; the end of a success is `finishApply`, whose bytes are read from the snapshot, so overlapping
regions are no case of their own. -/
theorem ctrApplyToXorsIntoTheDestination : Obligations.CtrApplyToXorsIntoTheDestination := by
  refine ⟨rfl, ?_⟩
  intro s hwf x off len dst dlen
  refine ⟨execCtrApplyTo_noContext, fun hvalid hne => ?_, fun hvalid heq hrange => ?_,
    fun hvalid heq hsrc hdst => ?_⟩
  · exact execCtrApplyTo_mismatch hvalid fun h => hne (congrArg BitVec.toNat h)
  · exact execCtrApplyTo_range hvalid (BitVec.eq_of_toNat_eq heq) hrange
  · refine ⟨_, execCtrApplyTo_ok hvalid (BitVec.eq_of_toNat_eq heq) hsrc hdst, ⟨rfl, rfl⟩,
      fun _ => readByte_finishApply_region _ x _ hwf, fun k hk => ?_, rfl, toNat_result_finishApply _ x _, rfl⟩
    rw [← heq] at hk
    exact readByte_finishApply_other _ x _ hk

end Sys2Proof.Machine
end

section
/-! SUPPORT. The family of the AES block: arithmetic in GF(2^8) (R92), the S-box (R93), the steps of a round at a row
and a column (R94 to R97), and the key schedule word by word (R98). -/

namespace Sys2Proof.Machine

/-! ### Arithmetic in GF(2^8) (R92) -/

theorem xtime_of_lt {b : Byte} (h : b.toNat < 128) : (xtime b).toNat = 2 * b.toNat := by
  have hbit : b.getLsbD 7 = false := Nat.testBit_lt_two_pow h
  rw [xtime, hbit, if_neg (by decide), BitVec.xor_zero, BitVec.toNat_shiftLeft, Nat.shiftLeft_eq]
  omega

/-- Doubling carries out of the byte; the polynomial 0x11B takes the carry away again and adds 0x1B. -/
theorem xtime_of_ge {b : Byte} (h : 128 ≤ b.toNat) : (xtime b).toNat = (2 * b.toNat) ^^^ 0x11B := by
  have hbit : b.getLsbD 7 = true := Nat.testBit_of_two_pow_le_and_two_pow_add_one_gt h b.isLt
  have hcarry : 2 * b.toNat / 2 ^ 8 = 1 := by omega
  have hbyte : ((2 * b.toNat) ^^^ 0x11B) / 2 ^ 8 = 0 := by
    rw [Nat.xor_div_two_pow, hcarry]
    rfl
  have hlow : ((2 * b.toNat) ^^^ 0x11B) % 2 ^ 8 = (2 * b.toNat % 2 ^ 8) ^^^ 0x1B := Nat.xor_mod_two_pow
  calc (xtime b).toNat
    _ = (2 * b.toNat % 2 ^ 8) ^^^ 0x1B := by
      rw [xtime, hbit, if_pos rfl, BitVec.toNat_xor, BitVec.toNat_shiftLeft, Nat.shiftLeft_eq, Nat.mul_comm]
      rfl
    _ = (2 * b.toNat) ^^^ 0x11B := by omega

/-- One term of the sum that `mul` is: `xtime^k(a)` where bit `k` of `b` is set. -/
def addMultiple (a b acc : Byte) (k : Nat) : Byte := if b.getLsbD k then acc ^^^ xtime^[k] a else acc

/-- The term of bit `k + 1` is that of bit `k` with `a` doubled and `b` shifted. -/
theorem addMultiple_succ (a b acc : Byte) (k : Nat) :
    addMultiple a b acc (k + 1) = addMultiple (xtime a) (b >>> 1) acc k := by
  rw [addMultiple, addMultiple, BitVec.getLsbD_ushiftRight, Nat.add_comm 1 k, Function.iterate_succ_apply]

theorem addMultiple_zero (a b acc : Byte) :
    addMultiple a b acc 0 = acc ^^^ (if b.getLsbD 0 then a else 0#8) := by
  rw [addMultiple]
  split
  · rfl
  · exact BitVec.xor_zero.symm

theorem foldl_addMultiple (n : Nat) (a b acc : Byte) :
    (List.range n).foldl (addMultiple a b) acc = acc ^^^ gmulBits n a b := by
  induction n generalizing a b acc with
  | zero => exact BitVec.xor_zero.symm
  | succ n ih =>
    rw [List.range_succ_eq_map, List.foldl_cons, List.foldl_map]
    simp only [Nat.succ_eq_add_one, addMultiple_succ]
    rw [ih, addMultiple_zero, BitVec.xor_assoc, gmulBits]

theorem gmul_eq_foldl (a b : Byte) : gmul a b = (List.range 8).foldl (addMultiple a b) 0#8 := by
  rw [foldl_addMultiple, BitVec.zero_xor, gmul]

/-- Settles O46: `xtime` by its two cases, and `gmul` as the fold of `gmul_eq_foldl`. -/
theorem fieldArithmeticIsModuloThePolynomial : Obligations.FieldArithmeticIsModuloThePolynomial := by
  refine ⟨fun b => ?_, gmul_eq_foldl⟩
  split
  · exact xtime_of_lt ‹_›
  · exact xtime_of_ge (not_lt.mp ‹_›)

/-! ### The S-box (R93) -/

/-- The affine map undone. -/
def sboxUnaffine (s : Byte) : Byte := s.rotateLeft 1 ^^^ s.rotateLeft 3 ^^^ s.rotateLeft 6 ^^^ 0x05#8

theorem sboxAffine_sboxUnaffine : ∀ s : Byte, sboxAffine (sboxUnaffine s) = s := by
  decide

/-- The table, with the affine map undone, is the table of the inverses. -/
theorem isGfInverse_sboxUnaffine_sbox : ∀ a : Byte, IsGfInverse a (sboxUnaffine (sbox a)) := by
  decide

/-- Settles O47: the inverse is the table's entry with the affine map undone. -/
theorem sboxIsTheAffineImageOfTheInverse : Obligations.SboxIsTheAffineImageOfTheInverse :=
  fun a => ⟨sboxUnaffine (sbox a), isGfInverse_sboxUnaffine_sbox a, (sboxAffine_sboxUnaffine (sbox a)).symm⟩

/-! ### The steps of a round (R94 to R97) -/

theorem getD_subBytes {b : List Byte} {j : Nat} (h : j < b.length) :
    (subBytes b).getD j 0 = sbox (b.getD j 0) := by
  rw [List.getD_eq_getElem _ _ h, List.getD_eq_getElem _ _ (by rwa [length_subBytes])]
  exact List.getElem_map sbox

theorem getD_shiftRows (b : List Byte) {r c : Nat} (hr : r < 4) (hc : c < 4) :
    (shiftRows b).getD (r + 4 * c) 0 = b.getD (r + 4 * ((c + r) % 4)) 0 := by
  have hrow : (r + 4 * c) % 4 = r := by omega
  have hcol : (r + 4 * c) / 4 = c := by omega
  rw [List.getD_eq_getElem _ _ (by rw [length_shiftRows]; omega)]
  simp only [shiftRows, List.getElem_map, List.getElem_range, hrow, hcol]

/-- What is left where a byte string is cut no further into groups of four. -/
theorem length_lt_four {l : List Byte}
    (h : ∀ (a0 a1 a2 a3 : Byte) (rest : List Byte), l = a0 :: a1 :: a2 :: a3 :: rest → False) : l.length < 4 := by
  match l, h with
  | [], _ | [_], _ | [_, _], _ | [_, _, _], _ => simp
  | a0 :: a1 :: a2 :: a3 :: rest, h => exact (h a0 a1 a2 a3 rest rfl).elim

/-- Column `c` of MixColumns depends on column `c` alone. -/
theorem getD_mixColumns {b : List Byte} {r c : Nat} (hr : r < 4) (hc : 4 * c + 4 ≤ b.length) :
    (mixColumns b).getD (r + 4 * c) 0 =
      (mixColumn (b.getD (0 + 4 * c) 0) (b.getD (1 + 4 * c) 0) (b.getD (2 + 4 * c) 0)
        (b.getD (3 + 4 * c) 0)).getD r 0 := by
  induction b using mixColumns.induct generalizing c with
  | case1 a0 a1 a2 a3 rest ih =>
    have hlen : (mixColumn a0 a1 a2 a3).length = 4 := rfl
    rw [mixColumns]
    cases c with
    | zero => exact List.getD_append _ _ _ _ (by omega)
    | succ c =>
      rw [List.length_cons, List.length_cons, List.length_cons, List.length_cons] at hc
      have hrest : r + 4 * (c + 1) - 4 = r + 4 * c := by omega
      rw [List.getD_append_right _ _ _ _ (by omega), hlen, hrest, ih (by omega)]
      rfl
  | case2 b hshort =>
    have := length_lt_four hshort
    omega

theorem getD_xorBytes {xs ys : List Byte} {j : Nat} (hx : j < xs.length) (hy : j < ys.length) :
    (xorBytes xs ys).getD j 0 = xs.getD j 0 ^^^ ys.getD j 0 := by
  rw [List.getD_eq_getElem _ _ hx, List.getD_eq_getElem _ _ hy,
    List.getD_eq_getElem _ _ (by rw [length_xorBytes]; exact lt_min hx hy), getElem_xorBytes]

theorem length_flatten_words {w : List (List Byte)} (hw : ∀ x ∈ w, x.length = 4) :
    w.flatten.length = 4 * w.length := by
  rw [List.length_flatten, List.map_congr_left hw, List.map_const', List.sum_replicate_nat, Nat.mul_comm]

/-- Byte `r` of word `c` stands at `r + 4c` of the words one after another. -/
theorem getD_flatten_words {w : List (List Byte)} (hw : ∀ x ∈ w, x.length = 4) {r : Nat} (hr : r < 4) (c : Nat) :
    w.flatten.getD (r + 4 * c) 0 = (w.getD c []).getD r 0 := by
  induction w generalizing c with
  | nil => rfl
  | cons x w ih =>
    obtain ⟨hx, hw⟩ := List.forall_mem_cons.mp hw
    rw [List.flatten_cons]
    cases c with
    | zero => exact List.getD_append _ _ _ _ (by omega)
    | succ c =>
      have hrest : r + 4 * (c + 1) - 4 = r + 4 * c := by omega
      rw [List.getD_append_right _ _ _ _ (by omega), hx, hrest, ih hw, List.getD_cons_succ]

theorem getD_addRoundKey {b : List Byte} (hb : b.length = 16) {w : List (List Byte)} (hw : ∀ x ∈ w, x.length = 4)
    {rnd : Nat} (hrnd : 4 * rnd + 4 ≤ w.length) {r c : Nat} (hr : r < 4) (hc : c < 4) :
    (addRoundKey w rnd b).getD (r + 4 * c) 0 = b.getD (r + 4 * c) 0 ^^^ (w.getD (4 * rnd + c) []).getD r 0 := by
  have hround : ∀ x ∈ (w.drop (4 * rnd)).take 4, x.length = 4 :=
    fun x hx => hw x (List.mem_of_mem_drop (List.mem_of_mem_take hx))
  have hlen : ((w.drop (4 * rnd)).take 4).length = 4 := by
    rw [List.length_take, List.length_drop]
    omega
  have hword : ((w.drop (4 * rnd)).take 4).getD c [] = w.getD (4 * rnd + c) [] := by
    rw [List.getD_eq_getElem _ _ (by omega), List.getD_eq_getElem _ _ (by omega), List.getElem_take, List.getElem_drop]
  rw [addRoundKey, getD_xorBytes (by omega) (by rw [length_flatten_words hround]; omega),
    getD_flatten_words hround hr, hword]

/-- Settles O48: one lemma a step; the four equations of MixColumns are the four entries of `mixColumn`. -/
theorem aesRoundStepsActOnRowsAndColumns : Obligations.AesRoundStepsActOnRowsAndColumns := by
  intro b r c hb hr hc at'
  have hcol : 4 * c + 4 ≤ b.length := by omega
  exact ⟨getD_subBytes (by omega), getD_shiftRows b hr hc,
    getD_mixColumns (r := 0) (by decide) hcol, getD_mixColumns (r := 1) (by decide) hcol,
    getD_mixColumns (r := 2) (by decide) hcol, getD_mixColumns (r := 3) (by decide) hcol,
    fun _ _ hw hrnd => getD_addRoundKey hb hw hrnd hr hc⟩

/-! ### The words of the key (R91, R98) -/

theorem length_keyWords (key : List Byte) : (keyWords key).length = key.length / 4 := by
  induction key using keyWords.induct with
  | case1 a0 a1 a2 a3 rest ih =>
    simp only [keyWords, List.length_cons, ih]
    omega
  | case2 key hshort =>
    rw [keyWords.eq_2 key hshort, Nat.div_eq_of_lt (length_lt_four hshort)]
    rfl

theorem length_of_mem_keyWords {key x : List Byte} (h : x ∈ keyWords key) : x.length = 4 := by
  induction key using keyWords.induct with
  | case1 a0 a1 a2 a3 rest ih =>
    rw [keyWords] at h
    rcases List.mem_cons.mp h with rfl | h
    · rfl
    · exact ih h
  | case2 key hshort =>
    rw [keyWords.eq_2 key hshort] at h
    cases h

theorem getD_keyWords {key : List Byte} {i : Nat} (h : i < key.length / 4) :
    (keyWords key).getD i [] = (key.drop (4 * i)).take 4 := by
  induction key using keyWords.induct generalizing i with
  | case1 a0 a1 a2 a3 rest ih =>
    cases i with
    | zero => rfl
    | succ i =>
      simp only [List.length_cons] at h
      exact ih (by omega)
  | case2 key hshort =>
    have := length_lt_four hshort
    omega

/-! ### The key schedule (R98) -/

/-- R98's `t` for word `i`, made from the word `p` before it. -/
def scheduleTerm (nk i : Nat) (p : List Byte) : List Byte :=
  if i % nk = 0 then xorBytes (subBytes (rotWord p)) [rcon (i / nk), 0, 0, 0]
  else if nk = 8 ∧ i % nk = 4 then subBytes p
  else p

theorem nextKeyWord_eq (nk : Nat) (w : List (List Byte)) :
    nextKeyWord nk w =
      xorBytes (w.getD (w.length - nk) []) (scheduleTerm nk w.length (w.getD (w.length - 1) [])) := rfl

theorem rotWord_of_length {p : List Byte} (h : p.length = 4) :
    rotWord p = [p.getD 1 0, p.getD 2 0, p.getD 3 0, p.getD 0 0] := by
  match p, h with
  | [_, _, _, _], _ => rfl

theorem length_scheduleTerm {nk i : Nat} {p : List Byte} (h : p.length = 4) : (scheduleTerm nk i p).length = 4 := by
  unfold scheduleTerm
  split
  · rw [length_xorBytes, length_subBytes, rotWord_of_length h]
    rfl
  · split
    · rw [length_subBytes, h]
    · exact h

theorem length_getD_word {w : List (List Byte)} (hw : ∀ x ∈ w, x.length = 4) {i : Nat} (h : i < w.length) :
    (w.getD i []).length = 4 := by
  rw [List.getD_eq_getElem _ _ h]
  exact hw _ (List.getElem_mem h)

theorem length_nextKeyWord {nk : Nat} (hnk : 0 < nk) {w : List (List Byte)} (hw : ∀ x ∈ w, x.length = 4)
    (hlen : nk ≤ w.length) : (nextKeyWord nk w).length = 4 := by
  rw [nextKeyWord_eq, length_xorBytes, length_getD_word hw (by omega),
    length_scheduleTerm (length_getD_word hw (by omega)), Nat.min_self]

theorem length_extendKey (nk n : Nat) (w : List (List Byte)) : (extendKey nk n w).length = w.length + n := by
  induction n generalizing w with
  | zero => rfl
  | succ n ih =>
    rw [extendKey, ih, List.length_append, List.length_singleton]
    omega

theorem prefix_extendKey (nk n : Nat) (w : List (List Byte)) : w <+: extendKey nk n w := by
  induction n generalizing w with
  | zero => exact List.prefix_rfl
  | succ n ih => exact (List.prefix_append w _).trans (ih _)

theorem length_of_mem_extendKey {nk : Nat} (hnk : 0 < nk) {n : Nat} {w : List (List Byte)}
    (hw : ∀ x ∈ w, x.length = 4) (hlen : nk ≤ w.length) : ∀ x ∈ extendKey nk n w, x.length = 4 := by
  induction n generalizing w with
  | zero => exact hw
  | succ n ih =>
    refine ih (List.forall_mem_append.mpr ⟨hw, ?_⟩) (by rw [List.length_append]; omega)
    exact List.forall_mem_singleton.mpr (length_nextKeyWord hnk hw hlen)

/-- Every word added is `nextKeyWord` of the words before it. -/
theorem getD_extendKey {nk n : Nat} {w : List (List Byte)} {i : Nat} (hi : w.length ≤ i) (hn : i < w.length + n) :
    (extendKey nk n w).getD i [] = nextKeyWord nk ((extendKey nk n w).take i) := by
  induction n generalizing w with
  | zero => omega
  | succ n ih =>
    rw [extendKey]
    rcases Nat.eq_or_lt_of_le hi with rfl | hlt
    · obtain ⟨rest, hrest⟩ := prefix_extendKey nk n (w ++ [nextKeyWord nk w])
      rw [← hrest, List.append_assoc, List.take_left, List.getD_append_right _ _ _ _ le_rfl, Nat.sub_self]
      rfl
    · have hlen : (w ++ [nextKeyWord nk w]).length = w.length + 1 := List.length_append
      exact ih (by omega) (by omega)

theorem getD_take {w : List (List Byte)} {i j : Nat} (h : j < i) : (w.take i).getD j [] = w.getD j [] := by
  rw [List.getD_eq_getElem?_getD, List.getElem?_take_of_lt h, ← List.getD_eq_getElem?_getD]

/-- The recurrence of R98: word `i` from the words `i - nk` and `i - 1`. -/
theorem getD_extendKey_eq_xorBytes {nk n : Nat} {w : List (List Byte)} (hnk : 0 < nk) (hw : w.length = nk) {i : Nat}
    (hi : nk ≤ i) (hn : i < nk + n) :
    (extendKey nk n w).getD i [] = xorBytes ((extendKey nk n w).getD (i - nk) [])
      (scheduleTerm nk i ((extendKey nk n w).getD (i - 1) [])) := by
  have hlen : ((extendKey nk n w).take i).length = i := by
    rw [List.length_take, length_extendKey]
    omega
  rw [getD_extendKey (by omega) (by omega), nextKeyWord_eq, hlen, getD_take (by omega), getD_take (by omega)]

theorem getD_extendKey_of_lt (nk n : Nat) {w : List (List Byte)} {i : Nat} (h : i < w.length) :
    (extendKey nk n w).getD i [] = w.getD i [] := by
  obtain ⟨rest, hrest⟩ := prefix_extendKey nk n w
  rw [← hrest, List.getD_append _ _ _ _ h]

theorem rcon_succ {n : Nat} (h1 : 1 ≤ n) (h10 : n < 10) : rcon (n + 1) = xtime (rcon n) := by
  have table : ∀ n < 10, 1 ≤ n → rcon (n + 1) = xtime (rcon n) := by decide
  exact table n h10 h1

/-- Settles O49: the schedule keeps the words of the key (`getD_extendKey_of_lt`) and adds the rest by the recurrence of
`getD_extendKey_eq_xorBytes`; every word has four bytes, so `RotWord` is the spec's. -/
theorem keyExpansionFollowsItsRecurrence : Obligations.KeyExpansionFollowsItsRecurrence := by
  refine ⟨⟨rfl, fun n => rcon_succ⟩, ?_⟩
  intro key hkey nk w
  have hnk : 0 < nk := Nat.div_pos (by omega) (by decide)
  have hwords : (keyWords key).length = nk := length_keyWords key
  have hcount : nk + (4 * (aesRounds key + 1) - nk) = 4 * (nk + 7) := by
    change nk + (4 * (nk + 6 + 1) - nk) = _
    omega
  have hlen : w.length = 4 * (nk + 7) := by
    rw [← hcount]
    exact (length_extendKey nk _ _).trans (congrArg (· + _) hwords)
  have hfour : ∀ x ∈ w, x.length = 4 :=
    length_of_mem_extendKey hnk (fun _ => length_of_mem_keyWords) hwords.ge
  refine ⟨hlen, fun i hi => ?_, fun i hi hi' => ?_⟩
  · exact (getD_extendKey_of_lt _ _ (by omega)).trans (getD_keyWords hi)
  · have hp : (w.getD (i - 1) []).length = 4 := length_getD_word hfour (by omega)
    intro p rot
    have hrot : rotWord p = rot := rotWord_of_length hp
    rw [← hrot]
    exact getD_extendKey_eq_xorBytes hnk hwords hi (by omega)

end Sys2Proof.Machine
end

section
/-! SUPPORT. The family of the control commands: an illegal word from the write to CMD to its completion (R101), and
SRESET at the host write (R100). -/

namespace Sys2Proof.Machine

/-! ### The illegal words (R63) -/

theorem toNat_rsvdField (w : Word) : (rsvdField w).toNat = w.toNat / 16 := by
  rw [rsvdField, BitVec.extractLsb'_toNat, Nat.shiftRight_eq_div_pow]
  omega

theorem toNat_opField (w : Word) : (opField w).toNat = w.toNat % 16 := by
  rw [opField, BitVec.extractLsb'_toNat, Nat.shiftRight_zero]

/-- The rows of the opcode map R62 marks illegal. -/
theorem isIllegal_decodeOp : ∀ op : BitVec 4,
    (decodeOp op).isIllegal = true ↔ op.toNat = 0 ∨ (8 ≤ op.toNat ∧ op.toNat ≤ 14) := by decide

theorem isIllegal_decodeWord (w : Word) : (decodeWord w).isIllegal = true ↔ IllegalWord w := by
  have hrsvd : rsvdField w = 0#28 ↔ w.toNat / 16 = 0 := by
    rw [← toNat_rsvdField, ← BitVec.toNat_inj]
    rfl
  by_cases h : rsvdField w = 0#28
  · rw [decodeWord, if_pos h, isIllegal_decodeOp, toNat_opField, IllegalWord,
      or_iff_right (not_not_intro (hrsvd.mp h))]
  · rw [decodeWord, if_neg h]
    exact iff_of_true rfl (.inl (mt hrsvd.mpr h))

theorem ne_sresetWord_of_illegalWord {w : Word} (h : IllegalWord w) : w ≠ sresetWord := by
  rintro rfl
  exact absurd h (by decide)

/-! ### An illegal word from its write to its completion (R39, R101) -/

theorem step_writeCmd {s : State} {w : Word} {es : List Event} (hr : s.port.resetIn = false)
    (he : s.port.events = .host (.write 0 w) :: es) : step s = writeCmd w (s.withEvents es) := by
  rw [step_host he hr, hostTransaction, hostWrite_cmd]

/-- The completion of an illegal word, the turn being the completion's. -/
theorem step_complete_illegal {s : State} {f : InFlight} {es : List Event} (hf : s.inflight = some f)
    (hw : IllegalWord f.word) (he : s.port.events = .complete :: es) :
    step s = .next ((s.withEvents es).failWith .illegalCommand) := by
  rw [step_complete he, completion_some (s := s.withEvents es) hf,
    exec_illegal ((isIllegal_decodeWord f.word).mpr hw)]

/-- A command started on the idle block that fails has changed STATUS alone. -/
theorem failWith_start {s : State} (hb : s.busy = false) (w : Word) (e : ErrCode) :
    (s.start w).failWith e = { s with status := { s.status with done := false, err := true, errcode := e } } := by
  have hidle := s.busy_eq_false.mp hb
  simp [State.start, State.failWith, hidle]

/-- Settles O59: the write starts the word (`writeCmd_started`) and the next step is the completion of an illegal word
(`step_complete_illegal`); while busy or in the fault state the write is rejected (`writeCmd_rejected`). -/
theorem illegalWordReportsIllegalCommand : Obligations.IllegalWordReportsIllegalCommand := by
  intro s w es hill hr he
  have hw := ne_sresetWord_of_illegalWord hill
  rw [step_writeCmd hr he]
  constructor
  · intro hb hf
    refine ⟨_, _, writeCmd_started hw hb hf, rfl, step_complete_illegal rfl hill rfl, ?_⟩
    refine (failWith_start (s := s.withEvents es) hb w .illegalCommand).trans ?_
    simp [hf]
  · exact fun h => ⟨_, writeCmd_rejected hw h, rfl⟩

/-! ### SRESET at the host write (R100, R116) -/

/-- After a reset every target but CONFIG reads 0. -/
theorem readTarget_resetBlock (s : State) {t : Target} (h : t ≠ .config) : readTarget s.resetBlock t = 0 := by
  cases t with
  | config => exact absurd rfl h
  | status => exact (by decide : statusWord State.reset = 0)
  | hFlags => exact (by decide : hFlagsWord Snapshot.reset.regs.hFlags = 0)
  | hRoute => exact (by decide : hRouteWord Snapshot.reset.regs.hRoute = 0)
  | buffer n => exact (by decide : le32 0 0 0 0 = 0)
  | _ => rfl

theorem readWindow_resetBlock (s : State) {a : Offset} (h : a ≠ 0x008) : readWindow s.resetBlock a = 0 := by
  refine readTarget_resetBlock s fun ht => h ?_
  have hconfig : targetOf 0x008 = .config := rfl
  exact targetOf_inj (ht.trans hconfig.symm) (by rw [ht]; decide)

/-- Settles O60: the step is the write of the SRESET word to CMD, hence `resetBlock` (`writeCmd_sreset`), which keeps
the build and with it CONFIG, and the outside. -/
theorem sresetResetsAtTheWrite : Obligations.SresetResetsAtTheWrite := by
  refine ⟨rfl, fun s es hr he => ⟨(s.withEvents es).resetBlock, rfl, ?_, rfl, ?_, ?_, ?_, ?_, rfl, rfl, rfl⟩⟩
  · rw [step_writeCmd hr he]
    exact writeCmd_sreset (s.withEvents es)
  · exact readWindow_resetBlock _ (by decide)
  · exact fun a => readWindow_resetBlock _
  · rw [readWindow_config, readWindow_config]
    rfl
  · exact fun k => rfl

end Sys2Proof.Machine
end

section
/-! SUPPORT. The family of the errors: what a failed command leaves as it was (R104), and what moves the block out of
idle (R115). -/

namespace Sys2Proof.Machine

/-! ### A failed command (R104) -/

/-- A command that sets ERR ended with an error or with CTR_BUILD's fault: a reset clears ERR, and a success leaves it
as it was. -/
theorem exec_failed_cases {i : Instr} {s t : State} (h : exec i s = .next t) (hs : s.status.err = false)
    (ht : t.status.err = true) : (∃ e, t = s.failWith e) ∨ t = s.faultWith .keyContract := by
  rcases exec_cases i s with ⟨_, heq⟩ | ⟨e, _, _, heq⟩ | ⟨_, heq⟩ | ⟨s', r, hout, heq⟩ <;> cases heq.symm.trans h
  · cases ht
  · exact .inl ⟨e, rfl⟩
  · exact .inr rfl
  · rw [State.succeed_status, hout.status, hs] at ht
    cases ht

/-- Settles O10: the command's end was `failWith`, which of these parts writes none, or `faultWith`, which sets FAULT and
clears CTX_VALID. -/
theorem failedCommandWritesOnlyStatus : Obligations.FailedCommandWritesOnlyStatus := by
  intro i s t h hs ht
  rcases exec_failed_cases h hs ht with ⟨e, rfl⟩ | rfl
  · exact ⟨rfl, rfl, rfl, rfl, .inl rfl⟩
  · exact ⟨rfl, rfl, rfl, rfl, .inr ⟨rfl, rfl⟩⟩

/-! ### Leaving idle (R115) -/

/-- The idle block has nothing to complete. -/
theorem completion_idle {s t : State} (hb : s.busy = false) (h : completion s = .next t) : t.busy = false := by
  rw [completion_none (s.busy_eq_false.mp hb)] at h
  cases h
  exact hb

/-- The one host write that moves the block out of idle: the start of a command. -/
theorem hostWrite_leaves_idle {a : Offset} {v : Word} {s t : State} (hb : s.busy = false)
    (h : hostWrite a v s = .next t) (ht : t.busy = true) : a = 0 ∧ v ≠ sresetWord ∧ s.status.fault = false := by
  rcases hostWrite_cases a v s with ⟨_, _, heq⟩ | ⟨_, _, heq⟩ | ⟨ha, hv, _, hf, _⟩ | ⟨_, _, heq⟩
  · cases heq.symm.trans h
    cases ht
  · cases heq.symm.trans h
    rw [State.reject_busy, hb] at ht
    cases ht
  · exact ⟨ha, hv, hf⟩
  · cases heq.symm.trans h
    rw [writeIdle_busy, hb] at ht
    cases ht

/-- Settles O30: of the steps of `step_cases` only the host write can set BUSY (`hostWrite_leaves_idle`); a completion
finds nothing in flight, a read and the release of the hard reset keep BUSY, and its assertion clears it. -/
theorem onlyCmdWriteLeavesIdle : Obligations.OnlyCmdWriteLeavesIdle := by
  intro s t hb h ht
  have hbusy : t.busy ≠ false := by simp [ht]
  rcases step_cases h with
    ⟨_, hc⟩ | ⟨es, ⟨_, hc⟩ | ⟨_, _, _, rfl⟩ | ⟨a, v, he, _, hw⟩ | ⟨_, rfl⟩ | ⟨_, rfl⟩⟩
  · exact absurd (completion_idle hb hc) hbusy
  · exact absurd (completion_idle (s := s.withEvents es) hb hc) hbusy
  · exact absurd hb hbusy
  · obtain ⟨rfl, hv, hf⟩ := hostWrite_leaves_idle (s := s.withEvents es) hb hw ht
    exact ⟨v, es, he, hv, hf⟩
  · exact absurd rfl hbusy
  · exact absurd hb hbusy

end Sys2Proof.Machine
end

section
/-! SUPPORT. The family of the hazards: a context serves one region only (R123). -/

namespace Sys2Proof.Machine

/-! ### What an apply can do (R86, R87) -/

/-- CTR_APPLY and CTR_APPLY_TO end with an error or by `finishApply`. -/
theorem execCtrApply_cases (s : State) :
    (∃ e, execCtrApply s = .next (s.failWith e)) ∨ ∃ dst bs, execCtrApply s = .next (finishApply s dst bs) := by
  rcases hv : s.inputs.ctx.valid with _ | _
  · exact .inl ⟨_, execCtrApply_noContext hv⟩
  · rcases Nat.lt_or_ge 256 (s.inputs.regs.srcOff.toNat + s.inputs.regs.srcLen.toNat) with hrange | hfits
    · exact .inl ⟨_, execCtrApply_range hv hrange⟩
    · exact .inr ⟨_, _, execCtrApply_ok hv hfits⟩

@[inherit_doc execCtrApply_cases]
theorem execCtrApplyTo_cases (s : State) :
    (∃ e, execCtrApplyTo s = .next (s.failWith e)) ∨ ∃ dst bs, execCtrApplyTo s = .next (finishApply s dst bs) := by
  rcases hv : s.inputs.ctx.valid with _ | _
  · exact .inl ⟨_, execCtrApplyTo_noContext hv⟩
  · by_cases hlen : s.inputs.regs.srcLen = s.inputs.regs.dstLen
    · by_cases hrange : 256 < s.inputs.regs.srcOff.toNat + s.inputs.regs.srcLen.toNat ∨
          256 < s.inputs.regs.dstOff.toNat + s.inputs.regs.dstLen.toNat
      · exact .inl ⟨_, execCtrApplyTo_range hv hlen hrange⟩
      · exact .inr ⟨_, _, execCtrApplyTo_ok hv hlen (by omega) (by omega)⟩
    · exact .inl ⟨_, execCtrApplyTo_mismatch hv hlen⟩

theorem exec_apply_cases {i : Instr} (hi : i = .ctrApply ∨ i = .ctrApplyTo) (s : State) :
    (∃ e, exec i s = .next (s.failWith e)) ∨ ∃ dst bs, exec i s = .next (finishApply s dst bs) := by
  rcases hi with rfl | rfl
  · exact execCtrApply_cases s
  · exact execCtrApplyTo_cases s

/-! ### A context serves one region (R123) -/

/-- An apply that leaves ERR clear has discarded the context: its other ends set ERR. -/
theorem exec_apply_discards_context {i : Instr} (hi : i = .ctrApply ∨ i = .ctrApplyTo) {s t : State}
    (h : exec i s = .next t) (ht : t.status.err = false) : t.ctx.valid = false := by
  rcases exec_apply_cases hi s with ⟨e, heq⟩ | ⟨dst, bs, heq⟩ <;> cases heq.symm.trans h
  · cases ht
  · rfl

/-- Settles O57: the first apply has discarded the context (`exec_apply_discards_context`), and a command started next
takes its snapshot of that state, so it meets the first error of either apply. -/
theorem contextServesOneRegion : Obligations.ContextServesOneRegion := by
  intro i s t hi h ht
  have hctx (w : Word) : (t.start w).inputs.ctx.valid = false := exec_apply_discards_context hi h ht
  exact ⟨execCtrApply_noContext (hctx _), execCtrApplyTo_noContext (hctx _)⟩

end Sys2Proof.Machine
end

section
/-! SUPPORT. The family of the encoding, decoder and encoder as each other's inverse on words and on bytes (R60 to R63),
and the step that completes the word in flight (R40). -/

namespace Sys2Proof

/-! ### Words and commands (R61 to R63) -/

theorem decodeWord_encode {i : Instr} (h : i.WellFormed) : decodeWord (encode i) = i := by
  cases i with
  | illegalRsvd rsvd op => exact Laws.RoundTrip.illegalRsvd rsvd op h
  | _ => rfl

theorem rsvdField_append_opField (w : Word) : rsvdField w ++ opField w = w := by
  apply BitVec.eq_of_getLsbD_eq
  intro k hk
  simp only [rsvdField, opField, BitVec.getLsbD_append, BitVec.getLsbD_extractLsb']
  by_cases h4 : k < 4
  · simp [h4]
  · simp [h4, show k - 4 < 28 by omega, show 4 + (k - 4) = k by omega]

/-- The rows of the opcode map R62, read from right to left. -/
theorem encode_decodeOp : ∀ op : BitVec 4, encode (decodeOp op) = 0#28 ++ op := by decide

theorem wf_decodeOp : ∀ op : BitVec 4, (decodeOp op).WellFormed := by decide

theorem encode_decodeWord (w : Word) : encode (decodeWord w) = w := by
  by_cases h : rsvdField w = 0#28
  · rw [decodeWord, if_pos h, encode_decodeOp, ← h, rsvdField_append_opField]
  · rw [decodeWord, if_neg h, encode, rsvdField_append_opField]

theorem wf_decodeWord (w : Word) : (decodeWord w).WellFormed := by
  by_cases h : rsvdField w = 0#28
  · rw [decodeWord, if_pos h]
    exact wf_decodeOp _
  · rw [decodeWord, if_neg h]
    exact bne_iff_ne.mpr h

/-! ### Bytes (R49, log entry 15) -/

theorem decode_le32bytes_append (w : Word) (rest : List Byte) :
    decode (le32bytes w ++ rest) = .ok (decodeWord w, rest) := by
  simp only [le32bytes, List.cons_append, List.nil_append, decode, Machine.le32_of_le32bytes]

theorem decode_le32bytes (w : Word) : decode (le32bytes w) = .ok (decodeWord w, []) :=
  decode_le32bytes_append w []

/-- The decoder turns away exactly the strings shorter than one word. -/
theorem decode_error_iff (bs : List Byte) : decode bs = .error .truncatedWord ↔ bs.length < 4 := by
  match bs with
  | [] | [_] | [_, _] | [_, _, _] => exact iff_of_true rfl (by simp)
  | _ :: _ :: _ :: _ :: _ => exact iff_of_false (fun h => by cases h) (by simp)

/-- Settles O2: the bytes put together are the command's word, which decodes to the command. -/
theorem decodeOfEncodeIsIdentity : Obligations.DecodeOfEncodeIsIdentity := by
  intro i rest h
  rw [encodeBytes, decode_le32bytes_append, decodeWord_encode h]

/-- Settles O3: `encode_decodeWord` for the words, `decode_le32bytes` and `decode_error_iff` for the bytes. -/
theorem encodeOfDecodeIsIdentity : Obligations.EncodeOfDecodeIsIdentity :=
  ⟨fun w => ⟨wf_decodeWord w, encode_decodeWord w, decode_le32bytes w⟩, decode_error_iff⟩

/-- A word that decodes to SRESET is SRESET's own word. -/
theorem decodeWord_eq_sreset_iff (w : Word) : decodeWord w = .sreset ↔ w.toNat = 15 := by
  constructor
  · intro h
    rw [← encode_decodeWord w, h]
    rfl
  · intro h
    have hw : w = sresetWord := BitVec.eq_of_toNat_eq h
    rw [hw, Machine.decodeWord_sresetWord]

/-- Settles O4: the illegal words by the two cases of the decoder (`isIllegal_decodeWord`), SRESET by its own word. -/
theorem illegalWordsAreExactlyTheReservedOnes : Obligations.IllegalWordsAreExactlyTheReservedOnes :=
  fun w => ⟨Machine.isIllegal_decodeWord w, decodeWord_eq_sreset_iff w⟩

/-! ### The completion of a word (R40) -/

/-- Settles O5: the bytes of the word in flight decode to what the word decodes to, and a step whose turn is the
completion's is `exec` of that. -/
theorem completionStepRunsDecodedCommand : Obligations.CompletionStepRunsDecodedCommand := by
  intro s f i hf hdecode
  have hi : decodeWord f.word = i := by
    rw [decode_le32bytes] at hdecode
    injection hdecode with hpair
    exact congrArg Prod.fst hpair
  refine ⟨fun es he => ?_, fun he => ?_⟩
  · rw [Machine.step_complete he, Machine.completion_some (s := s.withEvents es) hf, hi]
  · rw [Machine.step_nil he, Machine.completion_some hf, hi]

end Sys2Proof
end

section
/-! SUPPORT. The family of the header codec, the two directions together: the flags byte (R71), both header round trips
(R74), and the frame of the header commands. -/

namespace Sys2Proof.Machine

/-! ### The flags byte (R71) -/

theorem decodeFlags_encodeFlags (layout : FlagLayout) : ∀ (hl hs : BitVec 3) (wa vm : Bool),
    decodeFlags layout (encodeFlags layout hl hs wa vm) =
      { hopLimit := hl.setWidth 8, hopStart := hs.setWidth 8, wantAck := wa, viaMqtt := vm } := by
  cases layout <;> decide

theorem encodeFlags_decodeFlags (layout : FlagLayout) : ∀ f : Byte,
    encodeFlags layout ((decodeFlags layout f).hopLimit.setWidth 3) ((decodeFlags layout f).hopStart.setWidth 3)
      (decodeFlags layout f).wantAck (decodeFlags layout f).viaMqtt = f := by
  cases layout <;> decide

/-- Settles O31: both directions hold of every one of the 256 bytes, under each layout. -/
theorem flagsByteCodecIsBijective : Obligations.FlagsByteCodecIsBijective :=
  fun layout => ⟨decodeFlags_encodeFlags layout, encodeFlags_decodeFlags layout⟩

theorem decodeFlags_hopStart_le (layout : FlagLayout) (f : Byte) : (decodeFlags layout f).hopStart.toNat ≤ 7 := by
  have h := f.isLt
  cases layout with
  | upstream => rw [decodeFlags_upstream_hopStart]; omega
  | docProse => rw [decodeFlags_docProse_hopStart]; omega

/-- A hop count within the 3-bit range is cut to three bits and widened again without loss. -/
theorem setWidth_setWidth_three {x : Byte} (h : x.toNat ≤ 7) : (x.setWidth 3).setWidth 8 = x := by
  apply BitVec.eq_of_toNat_eq
  rw [BitVec.toNat_setWidth_of_le (by decide), toNat_setWidth_three h]

/-- Within the 3-bit range the fields of H_FLAGS survive the flags byte. -/
theorem decodeFlags_encodeFlags_setWidth (layout : FlagLayout) {f : HFlags} (hl : f.hopLimit.toNat ≤ 7)
    (hs : f.hopStart.toNat ≤ 7) :
    decodeFlags layout (encodeFlags layout (f.hopLimit.setWidth 3) (f.hopStart.setWidth 3) f.wantAck f.viaMqtt) =
      f := by
  rw [decodeFlags_encodeFlags, setWidth_setWidth_three hl, setWidth_setWidth_three hs]

/-! ### The wire header as the parser reads it (R72) -/

/-- The header registers HDR_PARSE reads from the buffers `m`, the other registers as in `r`. -/
def parsedRegs (layout : FlagLayout) (m : Memory) (r : Regs) : Regs :=
  { r with
    hDest := readLe32 m pktBase
    hSender := readLe32 m (pktBase + 4)
    hId := readLe32 m (pktBase + 8)
    hFlags := decodeFlags layout (readByte m (pktBase + 12))
    hRoute :=
      { channelHash := readByte m (pktBase + 13), nextHop := readByte m (pktBase + 14)
        relayNode := readByte m (pktBase + 15) } }

theorem le32bytes_readLe32 (m : Memory) (a : Nat) : le32bytes (readLe32 m a) = readBytes m a 4 :=
  le32bytes_of_le32 _ _ _ _

/-- The wire image of what was parsed is the header it was parsed from. -/
theorem wireImage_parsedRegs (layout : FlagLayout) (m : Memory) (r : Regs) :
    wireImage layout (parsedRegs layout m r) = readBytes m pktBase 16 := by
  simp only [wireImage, parsedRegs, encodeFlags_decodeFlags, le32bytes_readLe32]
  rfl

/-- What is parsed from a stored wire image are the header registers it was made of. -/
theorem parsedRegs_wireImage {m m' : Memory} {layout : FlagLayout} {r : Regs} (r' : Regs) (hm : m.wf)
    (hm' : m' = writeBytes m pktBase (wireImage layout r)) (hl : r.hFlags.hopLimit.toNat ≤ 7)
    (hs : r.hFlags.hopStart.toNat ≤ 7) :
    parsedRegs layout m' r' =
      { r' with hDest := r.hDest, hSender := r.hSender, hId := r.hId, hFlags := r.hFlags, hRoute := r.hRoute } := by
  have hnumber {v : Word} {j : Nat} (hj : j + 4 ≤ 16) (hv : ((wireImage layout r).drop j).take 4 = le32bytes v) :
      readLe32 m' (pktBase + j) = v := by
    apply BitVec.eq_of_toNat_eq
    rw [readLe32_toNat, leNat_readBytes_wireImage hm hm' rfl hj hv]
  have hbyte {j : Nat} {b : Byte} (hb : (wireImage layout r)[j]? = some b) : readByte m' (pktBase + j) = b :=
    readByte_wireImage hm hm' rfl hb
  rw [parsedRegs, hbyte (j := 12) rfl, hbyte (j := 13) rfl, hbyte (j := 14) rfl, hbyte (j := 15) rfl,
    hnumber (j := 4) (v := r.hSender) (by decide) rfl, hnumber (j := 8) (v := r.hId) (by decide) rfl,
    decodeFlags_encodeFlags_setWidth layout hl hs]
  rw [← Nat.add_zero pktBase, hnumber (j := 0) (v := r.hDest) (by decide) rfl]

/-! ### Both round trips (R74) -/

/-- HDR_PARSE of a long enough packet, from start to completion: the header registers and RESULT are set. -/
theorem runCommand_hdrParse {s t : State} (hlen : 16 ≤ s.regs.pktLen.toNat) (h : runCommand .hdrParse s = .next t) :
    t.regs = { parsedRegs s.build.flagLayout s.mem s.regs with result := 16 } ∧ t.mem = s.mem ∧
      t.build = s.build ∧ t.status.done = true := by
  cases (execHdrParse_ok (s := s.start (encode .hdrParse)) hlen).symm.trans h
  exact ⟨rfl, rfl, rfl, rfl⟩

/-- HDR_SERIALIZE within the 3-bit range, from start to completion: the wire image is stored and RESULT is set. -/
theorem runCommand_hdrSerialize {s t : State} (hl : s.regs.hFlags.hopLimit.toNat ≤ 7)
    (hs : s.regs.hFlags.hopStart.toNat ≤ 7) (h : runCommand .hdrSerialize s = .next t) :
    t.mem = writeBytes s.mem pktBase (wireImage s.build.flagLayout s.regs) ∧ t.regs = { s.regs with result := 16 } ∧
      t.build = s.build ∧ t.status.done = true := by
  obtain ⟨t', hexec, ⟨hstatus, _⟩, hmem, hregs, _⟩ :=
    hdrSerialize_stores_wireImage (s := s.start (encode .hdrSerialize)) hl hs
  cases hexec.symm.trans h
  exact ⟨hmem, hregs, exec_keeps_build (s := s.start (encode .hdrSerialize)) hexec, by rw [hstatus]⟩

/-- Settles O34: the second command of each trip undoes the first, by `parsedRegs_wireImage` and
`wireImage_parsedRegs`; the hop counts HDR_PARSE reads are always within the range HDR_SERIALIZE takes. -/
theorem headerRoundTrips : Obligations.HeaderRoundTrips := by
  refine ⟨fun s t u hwf hl hs hlen hser hparse => ?_, fun s t u hwf hlen hparse hser => ?_⟩
  · obtain ⟨htmem, htregs, htbuild, htdone⟩ := runCommand_hdrSerialize hl hs hser
    obtain ⟨huregs, _, _, hudone⟩ := runCommand_hdrParse (by rwa [htregs]) hparse
    rw [htbuild, parsedRegs_wireImage t.regs hwf htmem hl hs] at huregs
    rw [huregs]
    exact ⟨htdone, hudone, rfl, rfl, rfl, rfl, rfl⟩
  · obtain ⟨htregs, htmem, htbuild, htdone⟩ := runCommand_hdrParse hlen hparse
    have hlimit : t.regs.hFlags.hopLimit.toNat ≤ 7 := by
      rw [htregs, parsedRegs, decodeFlags_hopLimit]
      omega
    have hstart : t.regs.hFlags.hopStart.toNat ≤ 7 := by
      rw [htregs]
      exact decodeFlags_hopStart_le _ _
    obtain ⟨humem, _, _, hudone⟩ := runCommand_hdrSerialize hlimit hstart hser
    have himage : wireImage t.build.flagLayout t.regs = readBytes s.mem pktBase 16 := by
      rw [htbuild, htregs]
      exact wireImage_parsedRegs s.build.flagLayout s.mem s.regs
    refine ⟨htdone, hudone, ?_⟩
    rw [humem, himage, htmem, writeBytes_readBytes hwf]

/-! ### The frame of the header commands -/

/-- HDR_SERIALIZE ends with an error or stores 16 bytes at PKT[0]. -/
theorem execHdrSerialize_cases (s : State) :
    (∃ e, execHdrSerialize s = .next (s.failWith e)) ∨
      ∃ bs, bs.length = 16 ∧ execHdrSerialize s = .next ((s.storeBytes pktBase bs).succeed 16) := by
  by_cases hrange : 7 < s.inputs.regs.hFlags.hopLimit.toNat ∨ 7 < s.inputs.regs.hFlags.hopStart.toNat
  · exact .inl ⟨_, execHdrSerialize_error hrange⟩
  · exact .inr ⟨_, length_wireImage _ _, execHdrSerialize_ok (by omega) (by omega)⟩

/-- Settles O35: an error writes STATUS alone; a success of HDR_PARSE writes the header registers and RESULT, one of
HDR_SERIALIZE 16 bytes and RESULT. -/
theorem headerCommandsFrame : Obligations.HeaderCommandsFrame := by
  refine ⟨fun s t h => ?_, fun s t h => ?_⟩
  · rcases Nat.lt_or_ge s.inputs.regs.pktLen.toNat 16 with hlen | hlen
    · cases (execHdrParse_error hlen).symm.trans h
      exact ⟨rfl, rfl, rfl, rfl, rfl, rfl⟩
    · cases (execHdrParse_ok hlen).symm.trans h
      exact ⟨rfl, rfl, rfl, rfl, rfl, rfl⟩
  · rcases execHdrSerialize_cases s with ⟨e, heq⟩ | ⟨bs, hlen, heq⟩ <;> cases heq.symm.trans h
    · exact ⟨fun _ _ => rfl, rfl, rfl, rfl, rfl, rfl⟩
    · exact ⟨fun k hk => readByte_writeBytes_other s.mem pktBase bs (by rwa [hlen]), rfl, rfl, rfl, rfl, rfl⟩

end Sys2Proof.Machine
end

section
/-! SUPPORT. The family of the channel hash and of the illegal commands: the hash does not depend on the order of the
bytes (R76), and what these commands leave as it was. -/

namespace Sys2Proof.Machine

/-- The fold depends on how often each bit is set, not where. -/
theorem xorFold_perm {xs ys : List Byte} (h : xs.Perm ys) : xorFold xs = xorFold ys :=
  BitVec.eq_of_getLsbD_eq fun k _ => by rw [getLsbD_xorFold, getLsbD_xorFold, h.countP_eq]

/-- Settles O37: both runs succeed, and their folds agree by `xorFold_perm`. -/
theorem chHashIsOrderIndependent : Obligations.ChHashIsOrderIndependent := by
  intro s s' t t' bytes hn hk hn' hk' hperm h h'
  cases (execChHash_ok hn hk).symm.trans h
  cases (execChHash_ok hn' hk').symm.trans h'
  exact congrArg (BitVec.setWidth 32) (xorFold_perm hperm)

/-- Settles O38: CH_HASH ends with an error or writes RESULT; an illegal command ends with an error. -/
theorem chHashAndIllegalCommandsFrame : Obligations.ChHashAndIllegalCommandsFrame := by
  rintro i s t (rfl | hill) h
  · by_cases hrange : 64 < s.inputs.regs.nameLen.toNat ∨ 32 < s.inputs.regs.keyLen.toNat
    · cases (execChHash_error hrange).symm.trans h
      exact ⟨rfl, rfl, rfl, rfl, rfl, rfl, fun _ => rfl⟩
    · cases (execChHash_ok (s := s) (by omega) (by omega)).symm.trans h
      exact ⟨rfl, rfl, rfl, rfl, rfl, rfl, fun hill => by cases hill⟩
  · cases (exec_illegal hill s).symm.trans h
    exact ⟨rfl, rfl, rfl, rfl, rfl, rfl, fun _ => rfl⟩

/-- Settles O58: every illegal command is `raise ILLEGAL_COMMAND` (`exec_illegal`). -/
theorem illegalCommandsComplete : Obligations.IllegalCommandsComplete :=
  fun _ s hill => exec_illegal hill s

end Sys2Proof.Machine
end

section
/-! SUPPORT. The family of the key deriver: the one-byte PSK (R80) and the frame of PSK_DERIVE. -/

namespace Sys2Proof.Machine

/-! ### The one-byte PSK (R80) -/

/-- The last byte of the one-byte key, as a number: no carry leaves it. -/
theorem toNat_add_sub_one (x : Byte) {v : Byte} (hv : v ≠ 0) : (x + v - 1).toNat = (x.toNat + v.toNat - 1) % 256 := by
  have hpos : v.toNat ≠ 0 := fun h => hv (BitVec.eq_of_toNat_eq h)
  rw [BitVec.toNat_sub, BitVec.toNat_add]
  change (256 - 1 + (x.toNat + v.toNat) % 256) % 256 = _
  omega

/-- Settles O41: the key is `pskKey_oneByte`, 15 bytes of DEFAULT_KEY and one of `toNat_add_sub_one`. -/
theorem oneBytePskChangesOnlyTheLastKeyByte : Obligations.OneBytePskChangesOnlyTheLastKeyByte := by
  intro dk v hv
  have hhead : (dk.toList.take 15).length = 15 := by simp
  refine ⟨_, pskKey_oneByte dk hv, by rw [List.length_append, hhead]; rfl, fun i hi => ?_, dk[15] + v - 1, ?_,
    toNat_add_sub_one _ hv, fun hone => ?_⟩
  · rw [List.getElem?_append_left (by omega), List.getElem?_take_of_lt hi]
    simp
  · rw [List.getElem?_append_right (by omega), hhead]
    rfl
  · rw [hone, BitVec.add_comm]
    exact BitVec.add_sub_cancel v 1

/-! ### The frame of PSK_DERIVE -/

/-- PSK_DERIVE ends with an error or by `finishDerive` with a key that fits KEY. -/
theorem execPskDerive_cases (s : State) :
    (∃ e, execPskDerive s = .next (s.failWith e)) ∨
      ∃ k, k.length ≤ 32 ∧ execPskDerive s = .next (finishDerive s k) := by
  rcases Nat.lt_or_ge 64 s.inputs.regs.pskLen.toNat with hrange | hlen
  · exact .inl ⟨_, execPskDerive_range hrange⟩
  · rcases hd : b64decode (pskText s.inputs) with _ | d
    · exact .inl ⟨_, execPskDerive_invalid hlen hd⟩
    · rw [execPskDerive_decoded hlen hd]
      rcases hk : pskKey s.build.defaultKey d with k | _ | e
      · exact .inr ⟨k, by rcases pskKey_length hk with h | h <;> omega, rfl⟩
      · exact .inr ⟨[], by decide, rfl⟩
      · exact .inl ⟨e, rfl⟩

/-- Settles O42: `finishDerive` stores exactly 32 bytes at KEY, and an error stores none. -/
theorem pskDeriveFrame : Obligations.PskDeriveFrame := by
  intro s t h
  rcases execPskDerive_cases s with ⟨e, heq⟩ | ⟨k, hk, heq⟩ <;> cases heq.symm.trans h
  · exact ⟨fun _ _ => rfl, rfl, rfl, rfl, rfl, rfl⟩
  · have hlen : (k ++ zeros (keySize - k.length)).length = 32 := by
      rw [List.length_append, length_zeros, keySize]
      omega
    exact ⟨fun a ha => readByte_writeBytes_other s.mem keyBase _ (by rwa [hlen]), rfl, rfl, rfl, rfl, rfl⟩

end Sys2Proof.Machine
end

section
/-! SUPPORT. The family of the cipher engine, the laws: which counter blocks overlap (R89), the AES known answers, what
the cipher commands leave as it was, and the cipher as its own inverse (R88). -/

namespace Sys2Proof.Machine

/-! ### Counter blocks of one sender (R89) -/

theorem le32At_le32bytes_append (v : Word) (bs : List Byte) : le32At (le32bytes v ++ bs) 0 = v :=
  le32_of_le32bytes v

theorem le32bytes_injective {v w : Word} (h : le32bytes v = le32bytes w) : v = w := by
  rw [← le32_of_le32bytes v, ← le32_of_le32bytes w]
  injection h with h0 h
  injection h with h1 h
  injection h with h2 h
  injection h with h3
  rw [h0, h1, h2, h3]

/-- Under LOW the counter starts at the packet id, beside the twelve bytes that hold the sender. -/
theorem counterBlock_low_nonce (p sender : Word) (i : Nat) :
    counterBlock .low (nonce p sender) i =
      le32bytes (p + BitVec.ofNat 32 i) ++ (zeros 4 ++ le32bytes sender ++ zeros 4) := by
  have hnonce : nonce p sender = le32bytes p ++ (zeros 4 ++ le32bytes sender ++ zeros 4) := by
    simp only [nonce, List.append_assoc]
  rw [counterBlock_low (length_nonce p sender), hnonce, le32At_le32bytes_append,
    List.drop_left' (length_le32bytes p)]

/-- Under HIGH the counter starts at 0, beside the twelve bytes that hold the packet id and the sender. -/
theorem counterBlock_high_nonce (p sender : Word) (i : Nat) :
    counterBlock .high (nonce p sender) i =
      le32bytes p ++ (zeros 4 ++ le32bytes sender ++ le32bytes (BitVec.ofNat 32 i)) := by
  have hbytes : le32At (nonce p sender) 12 = le32 0 0 0 0 := rfl
  have hcount : le32 0 0 0 0 = 0#32 := rfl
  have hhead : (nonce p sender).take 12 = le32bytes p ++ (zeros 4 ++ le32bytes sender) := rfl
  rw [counterBlock, hbytes, hcount, hhead, BitVec.zero_add, List.append_assoc]

theorem counterBlock_low_nonce_inj (p p' sender : Word) (i j : Nat) :
    counterBlock .low (nonce p sender) i = counterBlock .low (nonce p' sender) j ↔
      p + BitVec.ofNat 32 i = p' + BitVec.ofNat 32 j := by
  rw [counterBlock_low_nonce, counterBlock_low_nonce, List.append_left_inj]
  exact ⟨le32bytes_injective, congrArg le32bytes⟩

theorem counterBlock_high_nonce_inj {p p' sender : Word} {i j : Nat} (hi : i < 16) (hj : j < 16)
    (h : counterBlock .high (nonce p sender) i = counterBlock .high (nonce p' sender) j) : p = p' ∧ i = j := by
  rw [counterBlock_high_nonce, counterBlock_high_nonce] at h
  obtain ⟨hp, htail⟩ := List.append_inj h rfl
  refine ⟨le32bytes_injective hp, ?_⟩
  have hcount := congrArg BitVec.toNat (le32bytes_injective (List.append_cancel_left htail))
  rw [BitVec.toNat_ofNat, BitVec.toNat_ofNat] at hcount
  omega

/-- Settles O45: a block under LOW is determined by the counter (`counterBlock_low_nonce_inj`), so packet `p'` begins at
block `p' - p` of packet `p`; a block under HIGH holds the packet id and the index in different bytes. -/
theorem counterBlocksOverlapOnlyUnderLow : Obligations.CounterBlocksOverlapOnlyUnderLow := by
  refine ⟨fun p sender i => ?_, counterBlock_low_nonce_inj, fun p p' sender n hn => ?_,
    fun p p' sender i j => counterBlock_high_nonce_inj⟩
  · rw [counterBlock_low_nonce_inj, BitVec.add_zero]
  · refine ⟨(p' - p).toNat, hn, ?_⟩
    rw [counterBlock_low_nonce_inj, BitVec.ofNat_toNat, BitVec.setWidth_eq, BitVec.add_zero, BitVec.add_comm]
    exact BitVec.sub_add_cancel p' p

/-! ### The AES known answers -/

/-- Settles O50: the cipher is run on the three vectors. -/
theorem aesGivesTheKnownAnswers : Obligations.AesGivesTheKnownAnswers := by
  unfold Obligations.AesGivesTheKnownAnswers
  decide +kernel

/-! ### The frame of the cipher commands (R85 to R87) -/

/-- CTR_APPLY ends with an error or stores to its source region. -/
theorem execCtrApply_ends (s : State) :
    (∃ e, execCtrApply s = .next (s.failWith e)) ∨
      execCtrApply s = .next (finishApply s s.inputs.regs.srcOff (cipherBytes s.build.ctrPos s.inputs)) := by
  rcases hv : s.inputs.ctx.valid with _ | _
  · exact .inl ⟨_, execCtrApply_noContext hv⟩
  · rcases Nat.lt_or_ge 256 (s.inputs.regs.srcOff.toNat + s.inputs.regs.srcLen.toNat) with hrange | hfits
    · exact .inl ⟨_, execCtrApply_range hv hrange⟩
    · exact .inr (execCtrApply_ok hv hfits)

/-- CTR_APPLY_TO ends with an error or, the lengths being equal, stores to its destination region. -/
theorem execCtrApplyTo_ends (s : State) :
    (∃ e, execCtrApplyTo s = .next (s.failWith e)) ∨
      s.inputs.regs.srcLen = s.inputs.regs.dstLen ∧
        execCtrApplyTo s = .next (finishApply s s.inputs.regs.dstOff (cipherBytes s.build.ctrPos s.inputs)) := by
  rcases hv : s.inputs.ctx.valid with _ | _
  · exact .inl ⟨_, execCtrApplyTo_noContext hv⟩
  · by_cases hlen : s.inputs.regs.srcLen = s.inputs.regs.dstLen
    · by_cases hrange : 256 < s.inputs.regs.srcOff.toNat + s.inputs.regs.srcLen.toNat ∨
          256 < s.inputs.regs.dstOff.toNat + s.inputs.regs.dstLen.toNat
      · exact .inl ⟨_, execCtrApplyTo_range hv hlen hrange⟩
      · exact .inr ⟨hlen, execCtrApplyTo_ok hv hlen (by omega) (by omega)⟩
    · exact .inl ⟨_, execCtrApplyTo_mismatch hv hlen⟩

/-- Settles O55: CTR_BUILD ends with the fault or loads a context, an apply with an error or by `finishApply`. -/
theorem cipherCommandsFrame : Obligations.CipherCommandsFrame := by
  intro s t kept
  refine ⟨fun h => ?_, fun h => ?_, fun h => ?_⟩
  · by_cases hlen : s.inputs.regs.keyLen.toNat = 16 ∨ s.inputs.regs.keyLen.toNat = 32
    · cases (execCtrBuild_ok hlen).symm.trans h
      exact ⟨⟨rfl, rfl, rfl, rfl⟩, rfl⟩
    · cases (execCtrBuild_fault (s := s) (by omega) (by omega)).symm.trans h
      exact ⟨⟨rfl, rfl, rfl, rfl⟩, rfl⟩
  · rcases execCtrApply_ends s with ⟨e, heq⟩ | heq <;> cases heq.symm.trans h
    · exact ⟨⟨rfl, rfl, rfl, rfl⟩, rfl, rfl, fun _ _ => rfl⟩
    · exact ⟨⟨rfl, rfl, rfl, rfl⟩, rfl, rfl, fun k hk => readByte_finishApply_other _ _ _ hk⟩
  · rcases execCtrApplyTo_ends s with ⟨e, heq⟩ | ⟨hlen, heq⟩ <;> cases heq.symm.trans h
    · exact ⟨⟨rfl, rfl, rfl, rfl⟩, rfl, rfl, fun _ _ => rfl⟩
    · refine ⟨⟨rfl, rfl, rfl, rfl⟩, rfl, rfl, fun k hk => ?_⟩
      rw [← hlen] at hk
      exact readByte_finishApply_other _ _ _ hk

/-! ### CTR_APPLY_TO onto its source (R87) -/

/-- Settles O54: with equal regions the commands test the same conditions and end by the same `finishApply`. -/
theorem ctrApplyToOnTheSourceIsCtrApply : Obligations.CtrApplyToOnTheSourceIsCtrApply := by
  intro s hoff hlen
  rcases hv : s.inputs.ctx.valid with _ | _
  · exact (execCtrApplyTo_noContext hv).trans (execCtrApply_noContext hv).symm
  · rcases Nat.lt_or_ge 256 (s.inputs.regs.srcOff.toNat + s.inputs.regs.srcLen.toNat) with hrange | hfits
    · exact (execCtrApplyTo_range hv hlen.symm (.inl hrange)).trans (execCtrApply_range hv hrange).symm
    · refine (execCtrApplyTo_ok hv hlen.symm hfits (by rwa [hoff, hlen])).trans ?_
      rw [hoff]
      exact (execCtrApply_ok hv hfits).symm

/-! ### The cipher as its own inverse (R88) -/

/-- The context CTR_BUILD loads from registers `r` and buffers `m` (R85). -/
def builtContext (r : Regs) (m : Memory) : Context where
  valid := true
  klen := r.keyLen
  key := bytesToVector 32 (readBytes m keyBase r.keyLen.toNat ++ zeros (32 - r.keyLen.toNat))
  n0 := bytesToVector 16 (nonce r.hId r.hSender)

/-- CTR_BUILD from start to completion, with a good KEY_LEN: the context is loaded and RESULT written. -/
theorem runCommand_ctrBuild {s t : State} (hkey : s.regs.keyLen.toNat = 16 ∨ s.regs.keyLen.toNat = 32)
    (h : runCommand .ctrBuild s = .next t) :
    t.ctx = builtContext s.regs s.mem ∧ t.mem = s.mem ∧ t.regs = { s.regs with result := t.regs.result } ∧
      t.build = s.build := by
  cases (execCtrBuild_ok (s := s.start (encode .ctrBuild)) hkey).symm.trans h
  exact ⟨rfl, rfl, rfl, rfl⟩

/-- CTR_APPLY from start to completion, with a context and a fitting region: the region is replaced and RESULT
written. -/
theorem runCommand_ctrApply {s t : State} (hv : s.ctx.valid = true)
    (hfits : s.regs.srcOff.toNat + s.regs.srcLen.toNat ≤ 256) (h : runCommand .ctrApply s = .next t) :
    t.mem = writeBytes s.mem (pktAddr s.regs.srcOff) (cipherBytes s.build.ctrPos s.snapshot) ∧
      t.regs = { s.regs with result := t.regs.result } ∧ t.build = s.build ∧ t.status.done = true := by
  cases (execCtrApply_ok (s := s.start (encode .ctrApply)) hv hfits).symm.trans h
  exact ⟨rfl, rfl, rfl, rfl⟩

/-- A packet region ends below KEY, so storing to it leaves the context CTR_BUILD would load as it was. -/
theorem builtContext_writeBytes_region {r : Regs} (m : Memory) {bs : List Byte} {off : BitVec 9}
    (hfits : off.toNat + bs.length ≤ 256) : builtContext r (writeBytes m (pktAddr off) bs) = builtContext r m := by
  have hkey (n : Nat) : readBytes (writeBytes m (pktAddr off) bs) keyBase n = readBytes m keyBase n :=
    readBytes_congr fun j _ => readByte_writeBytes_other _ _ _ (.inr (by simp only [pktAddr, pktBase, keyBase]; omega))
  simp only [builtContext, hkey]

/-- A byte string written over one of the same length leaves nothing of it. -/
theorem writeBytes_writeBytes {m : Memory} (hm : m.wf) (a : Nat) {xs ys : List Byte} (h : xs.length = ys.length) :
    writeBytes (writeBytes m a xs) a ys = writeBytes m a ys := by
  have hxs := wf_writeBytes hm a xs
  refine memory_ext (wf_writeBytes hxs a ys) (wf_writeBytes hm a ys) fun k => ?_
  by_cases hk : k < a ∨ a + ys.length ≤ k
  · rw [readByte_writeBytes_other _ _ _ hk, readByte_writeBytes_other _ _ _ hk,
      readByte_writeBytes_other _ _ _ (by rwa [h])]
  · obtain ⟨j, rfl⟩ : ∃ j, k = a + j := ⟨k - a, by omega⟩
    rw [readByte_writeBytes_same hxs a ys (by omega), readByte_writeBytes_same hm a ys (by omega)]

/-- Ciphering the ciphered region with the same context gives the region's own bytes. -/
theorem cipherBytes_cipherBytes {pos : CtrPos} {x y : Snapshot} (hx : x.mem.wf) (hoff : y.regs.srcOff = x.regs.srcOff)
    (hlen : y.regs.srcLen = x.regs.srcLen) (hctx : y.ctx = x.ctx)
    (hmem : y.mem = writeBytes x.mem (pktAddr x.regs.srcOff) (cipherBytes pos x)) :
    cipherBytes pos y = readBytes x.mem (pktAddr x.regs.srcOff) x.regs.srcLen.toNat := by
  apply List.ext_getElem
  · rw [length_cipherBytes, length_readBytes, hlen]
  · intro j hj _
    have hj' : j < (cipherBytes pos x).length := by
      rw [length_cipherBytes] at hj ⊢
      rwa [← hlen]
    rw [getElem_cipherBytes, getElem_readBytes, hoff, hctx, hmem, readByte_writeBytes_same hx _ _ hj',
      getElem_cipherBytes, BitVec.xor_assoc, BitVec.xor_self, BitVec.xor_zero]

/-- Settles O56: the second CTR_BUILD loads the first one's context (`builtContext_writeBytes_region`), so the second
CTR_APPLY writes back the bytes the region held at first (`cipherBytes_cipherBytes`). -/
theorem cipherIsItsOwnInverse : Obligations.CipherIsItsOwnInverse := by
  intro s s1 s2 s3 s4 hwf hkey hfits h1 h2 h3 h4
  obtain ⟨hctx1, hmem1, hregs1, hbuild1⟩ := runCommand_ctrBuild hkey h1
  obtain ⟨hmem2, hregs2, hbuild2, _⟩ := runCommand_ctrApply (by rw [hctx1]; rfl) (by rwa [hregs1]) h2
  have hregs2 : s2.regs = { s.regs with result := s2.regs.result } := by rw [hregs2, hregs1]
  obtain ⟨hctx3, hmem3, hregs3, hbuild3⟩ := runCommand_ctrBuild (by rwa [hregs2]) h3
  have hregs3 : s3.regs = { s.regs with result := s3.regs.result } := by rw [hregs3, hregs2]
  obtain ⟨hmem4, _, _, hdone4⟩ := runCommand_ctrApply (by rw [hctx3]; rfl) (by rwa [hregs3]) h4
  refine ⟨hdone4, ?_⟩
  have hwf1 : s1.mem.wf := by rwa [hmem1]
  have hctx : s3.ctx = s1.ctx := by
    rw [hctx3, hctx1, hregs2, hmem2, hmem1]
    exact builtContext_writeBytes_region _ (by rw [length_cipherBytes, State.snapshot_regs, hregs1]; exact hfits)
  have hback : cipherBytes s3.build.ctrPos s3.snapshot =
      readBytes s1.mem (pktAddr s1.regs.srcOff) s1.regs.srcLen.toNat := by
    rw [hbuild3, hbuild2]
    refine cipherBytes_cipherBytes (x := s1.snapshot) hwf1 ?_ ?_ hctx (hmem3.trans hmem2) <;>
      rw [State.snapshot_regs, State.snapshot_regs, hregs3, hregs1]
  have hoff : s3.regs.srcOff = s1.regs.srcOff := by rw [hregs3, hregs1]
  rw [hmem4, hback, hoff, hmem3, hmem2, writeBytes_writeBytes hwf1, writeBytes_readBytes hwf1, hmem1]
  rw [length_cipherBytes, length_readBytes, State.snapshot_regs]

end Sys2Proof.Machine
end

section
/-! SUPPORT. The family of the register window, its reads and writes field by field: what a register and STATUS show
(R20 to R31), the write-1-to-clear bits (R21), the offset a write changes, and the context the host cannot reach
(R36). -/

namespace Sys2Proof.Machine

/-! ### Registers as numbers (R23 to R31) -/

/-- A field of a 32-bit view stands for its number times the weight of its lowest bit. -/
theorem toNat_setWidth_word_shiftLeft {w : Nat} (x : BitVec w) (i : Nat) (hw : i + w ≤ 32) :
    (x.setWidth 32 <<< i).toNat = 2 ^ i * x.toNat := by
  have hfits : 2 ^ i * x.toNat < 2 ^ 32 :=
    calc 2 ^ i * x.toNat < 2 ^ i * 2 ^ w := by gcongr; exact x.isLt
      _ = 2 ^ (i + w) := (pow_add 2 i w).symm
      _ ≤ 2 ^ 32 := Nat.pow_le_pow_right (by decide) hw
  rw [BitVec.toNat_shiftLeft, BitVec.toNat_setWidth_of_le (by omega), Nat.shiftLeft_eq, Nat.mul_comm,
    Nat.mod_eq_of_lt hfits]

theorem toNat_hFlagsWord (f : HFlags) : (hFlagsWord f).toNat =
    f.hopLimit.toNat + 2 ^ 8 * f.hopStart.toNat + 2 ^ 16 * bitNat f.wantAck + 2 ^ 17 * bitNat f.viaMqtt := by
  have hwa := bitNat_le f.wantAck
  simp only [hFlagsWord, BitVec.toNat_or]
  rw [toNat_setWidth_word_shiftLeft _ 8 (by decide), flagBit_toNat _ (by decide), flagBit_toNat _ (by decide),
    BitVec.toNat_setWidth_of_le (by decide), or_eq_add 8 f.hopLimit.isLt, or_eq_add 16 (by omega),
    or_eq_add 17 (by omega)]

theorem toNat_hRouteWord (r : HRoute) : (hRouteWord r).toNat =
    r.channelHash.toNat + 2 ^ 8 * r.nextHop.toNat + 2 ^ 16 * r.relayNode.toNat := by
  simp only [hRouteWord, BitVec.toNat_or]
  rw [toNat_setWidth_word_shiftLeft _ 8 (by decide), toNat_setWidth_word_shiftLeft _ 16 (by decide),
    BitVec.toNat_setWidth_of_le (by decide), or_eq_add 8 r.channelHash.isLt, or_eq_add 16 (by omega)]

/-- Settles O13: each offset names its register; the two registers with several fields are sums, and a narrow register
is widened without change. -/
theorem registerReadsShowTheirFields : Obligations.RegisterReadsShowTheirFields := by
  intro s
  have hwide {w : Nat} (x : BitVec w) (hw : w ≤ 32) : (x.setWidth 32).toNat = x.toNat :=
    BitVec.toNat_setWidth_of_le hw
  exact ⟨rfl, rfl, rfl, rfl, rfl, toNat_hFlagsWord _, toNat_hRouteWord _, hwide _ (by decide), hwide _ (by decide),
    hwide _ (by decide), hwide _ (by decide), hwide _ (by decide), hwide _ (by decide), hwide _ (by decide),
    hwide _ (by decide)⟩

/-! ### STATUS (R21, R103) -/

theorem toNat_errNumber_shiftLeft (e : ErrCode) : (errNumber e <<< 8).toNat = 2 ^ 8 * (errNumber e).toNat := by
  cases e <;> rfl

/-- STATUS as the sum of its fields. -/
theorem toNat_statusWord (s : State) : (statusWord s).toNat =
    bitNat s.busy + 2 * bitNat s.status.done + 4 * bitNat s.status.err + 8 * bitNat s.status.fault +
      16 * bitNat s.ctx.valid + 32 * bitNat s.status.rej + 256 * (errNumber s.status.errcode).toNat := by
  have hbusy := bitNat_le s.busy
  have hdone := bitNat_le s.status.done
  have herr := bitNat_le s.status.err
  have hfault := bitNat_le s.status.fault
  have hvalid := bitNat_le s.ctx.valid
  have hrej := bitNat_le s.status.rej
  simp only [statusWord, BitVec.toNat_or, toNat_errNumber_shiftLeft]
  rw [flagBit_toNat _ (by decide), flagBit_toNat _ (by decide), flagBit_toNat _ (by decide),
    flagBit_toNat _ (by decide), flagBit_toNat _ (by decide), flagBit_toNat _ (by decide), or_eq_add 1 (by omega),
    or_eq_add 2 (by omega), or_eq_add 3 (by omega), or_eq_add 4 (by omega), or_eq_add 5 (by omega),
    or_eq_add 8 (by omega)]
  omega

/-- Settles O14: `toNat_statusWord`, and the numbers of R103 are those of `errNumber`. -/
theorem statusReadShowsItsFields : Obligations.StatusReadShowsItsFields := by
  intro s
  refine (toNat_statusWord s).trans ?_
  cases s.status.errcode <;> rfl

/-- A flag with a write-1-to-clear bit stays set exactly where it was set and the bit is 0. -/
theorem and_not_getLsbD_iff (b : Bool) (v : Word) (i : Nat) :
    (b && !v.getLsbD i) = true ↔ b = true ∧ v.toNat.testBit i = false := by
  rw [BitVec.testBit_toNat, Bool.and_eq_true, Bool.not_eq_true']

theorem clearStatus_clears_err {st : Status} {v : Word} (hv : v.getLsbD 2 = true) (hf : st.fault = false) :
    (clearStatus st v).err = false ∧ (clearStatus st v).errcode = .none := by
  simp [clearStatus, hv, hf]

theorem clearStatus_keeps_err {st : Status} {v : Word} (h : v.getLsbD 2 = false ∨ st.fault = true) :
    (clearStatus st v).err = st.err ∧ (clearStatus st v).errcode = st.errcode := by
  have hkeep : (v.getLsbD 2 && !st.fault) = false := by
    rw [Bool.and_eq_false_iff, Bool.not_eq_false']
    exact h
  simp only [clearStatus, hkeep, Bool.not_false, Bool.and_true, Bool.false_eq_true, if_false, and_self]

/-- Settles O15: the write is `clearStatus`, bit by bit. -/
theorem statusWriteClearsWrittenOnes : Obligations.StatusWriteClearsWrittenOnes := by
  intro s v hb
  refine ⟨_, hostWrite_idle v (by decide) hb, and_not_getLsbD_iff s.status.done v 1,
    and_not_getLsbD_iff s.status.rej v 5, fun hv hf => ?_, fun h => ?_, rfl, rfl, rfl, rfl, rfl, rfl, rfl⟩
  · rw [BitVec.testBit_toNat] at hv
    exact clearStatus_clears_err hv hf
  · rw [BitVec.testBit_toNat] at h
    exact clearStatus_keeps_err h

/-! ### A write changes one offset (R44, R47, R49) -/

/-- Neither CONFIG, RESULT nor an offset that names nothing takes a value. -/
theorem writeIdle_readOnly (s : State) (v : Word) {t : Target} (h : t = .config ∨ t = .result ∨ t = .unmapped) :
    writeIdle s v t = s := by
  rcases h with rfl | rfl | rfl <;> rfl

/-- A word is read as before when the bytes stored lie outside it. -/
theorem readLe32_writeBytes_other (m : Memory) {a b : Nat} {bs : List Byte} (h : b + 4 ≤ a ∨ a + bs.length ≤ b) :
    readLe32 (writeBytes m a bs) b = readLe32 m b := by
  have hbyte {j : Nat} (hj : j < 4) : readByte (writeBytes m a bs) (b + j) = readByte m (b + j) :=
    readByte_writeBytes_other m a bs (by omega)
  simp only [readLe32]
  rw [hbyte (j := 1) (by decide), hbyte (j := 2) (by decide), hbyte (j := 3) (by decide),
    readByte_writeBytes_other m a bs (by omega)]

/-- A write to one target leaves every other target reading as before, two buffer words being apart. -/
theorem readTarget_writeIdle_other (s : State) (v : Word) {t u : Target} (hne : u ≠ t)
    (hapart : ∀ m n, t = .buffer m → u = .buffer n → n + 4 ≤ m ∨ m + 4 ≤ n) :
    readTarget (writeIdle s v t) u = readTarget s u := by
  cases t with
  | buffer m =>
    cases u with
    | buffer n => exact readLe32_writeBytes_other s.mem (hapart m n rfl rfl)
    | _ => rfl
  | _ =>
    cases u with
    | buffer n => rfl
    -- two registers: a field of its own each, or the same target
    | _ => first | rfl | exact absurd rfl hne

/-- Settles O17: another offset names another target (`targetOf_inj`), and two buffer words are four bytes apart; where
the offset written names nothing that takes a value, the write changes nothing. -/
theorem hostWriteChangesOnlyItsOffset : Obligations.HostWriteChangesOnlyItsOffset := by
  intro s a v hb ha
  refine ⟨_, hostWrite_idle v ha hb, fun b h => ?_, writeIdle_ctx s v _,
    by rw [writeIdle_inflight, s.busy_eq_false.mp hb], writeIdle_build s v _, writeIdle_port s v _⟩
  by_cases hro : targetOf a = .config ∨ targetOf a = .result ∨ targetOf a = .unmapped
  · rw [writeIdle_readOnly s v hro]
  · have hba : b ≠ a := by
      rcases h with h | rfl | rfl | h
      · exact h
      · exact absurd (.inl rfl) hro
      · exact absurd (.inr (.inl rfl)) hro
      · exact absurd (.inr (.inr (targetOf_unmapped h))) hro
    have hmapped : targetOf a ≠ .unmapped := fun h => hro (.inr (.inr h))
    refine readTarget_writeIdle_other s v (fun h => hba (targetOf_inj h.symm hmapped).symm) fun m n hm hn => ?_
    obtain ⟨rfl, ha4, _⟩ := targetOf_eq_buffer hm
    obtain ⟨rfl, hb4, _⟩ := targetOf_eq_buffer hn
    have hne : b.toNat ≠ a.toNat := fun h => hba (BitVec.eq_of_toNat_eq h)
    omega

/-! ### The context is out of the host's reach (R36) -/

/-- Of the context a read can show CTX_VALID alone. -/
theorem readWindow_of_ctx_valid (s : State) {c : Context} (h : c.valid = s.ctx.valid) (a : Offset) :
    readWindow { s with ctx := c } a = readWindow s a := by
  simp only [readWindow]
  cases targetOf a with
  | status => simp only [readTarget, statusWord, State.busy, h]
  | _ => rfl

/-- Settles O29: `readWindow_of_ctx_valid` for the reads; of the host's writes only SRESET's reset writes the
context. -/
theorem hostCannotReadOrWriteTheContext : Obligations.HostCannotReadOrWriteTheContext := by
  refine ⟨fun s c a h => readWindow_of_ctx_valid s h a, fun s t a v h => ?_⟩
  rcases hostWrite_cases a v s with ⟨ha, hv, heq⟩ | ⟨_, _, heq⟩ | ⟨_, _, _, _, heq⟩ | ⟨_, _, heq⟩ <;>
    cases heq.symm.trans h
  · exact .inr ⟨ha, hv, rfl⟩
  · exact .inl rfl
  · exact .inl rfl
  · exact .inl (writeIdle_ctx s v (targetOf a))

end Sys2Proof.Machine
end

section
/-! SUPPORT. The family of the command lifecycle: host steps and CMD writes (R39, R44), how a command ends (R40, R103),
how a command in flight goes on to its end (R54, R107, R125), and both resets (R116, R118). -/

namespace Sys2Proof.Machine

/-! ### Host steps (R39, R44) -/

theorem readWindow_withEvents (s : State) (es : List Event) (a : Offset) :
    readWindow (s.withEvents es) a = readWindow s a := by
  simp only [readWindow]
  cases targetOf a <;> rfl

/-- Settles O6: each turn of the host is `hostTransaction`, whose read and write are the two clauses; the write of the
SRESET word is the first case of `writeCmd`. -/
theorem hostStepRunsTransaction : Obligations.HostStepRunsTransaction := by
  intro s es hr
  refine ⟨fun a he => ?_, fun a v he => ?_, fun he => ?_⟩
  · rw [step_read hr he, readWindow_withEvents]
  · rw [step_host he hr, hostTransaction]
  · rw [step_writeCmd hr he, writeCmd_sreset, decodeWord_sresetWord]
    rfl

/-- Settles O7: the step is `writeCmd`, whose cases are `writeCmd_sreset`, `writeCmd_rejected` and
`writeCmd_started`. -/
theorem cmdWriteFollowsTheFourCases : Obligations.CmdWriteFollowsTheFourCases := by
  intro s w es hr he
  rw [step_writeCmd hr he]
  refine ⟨?_, writeCmd_rejected (s := s.withEvents es), fun hw hb hf => ?_⟩
  · rintro rfl
    exact writeCmd_sreset (s.withEvents es)
  · exact ⟨_, writeCmd_started hw hb hf, rfl, rfl, rfl, rfl, rfl, rfl, rfl, rfl, rfl, rfl⟩

/-! ### How a command ends (R40, R103) -/

theorem exec_answers (i : Instr) (s : State) : ∃ t, exec i s = .next t := by
  rcases exec_cases i s with ⟨_, h⟩ | ⟨_, _, _, h⟩ | ⟨_, h⟩ | ⟨_, _, _, h⟩ <;> exact ⟨_, h⟩

theorem exec_ends_flight {i : Instr} {s t : State} (h : exec i s = .next t) : t.inflight = none := by
  rcases exec_cases i s with ⟨_, heq⟩ | ⟨_, _, _, heq⟩ | ⟨_, heq⟩ | ⟨s', r, _, heq⟩ <;> cases heq.symm.trans h <;> rfl

theorem exec_keeps_port {i : Instr} {s t : State} (h : exec i s = .next t) : t.port = s.port := by
  rcases exec_cases i s with ⟨_, heq⟩ | ⟨_, _, _, heq⟩ | ⟨_, heq⟩ | ⟨s', r, hout, heq⟩ <;>
    cases heq.symm.trans h
  · rfl
  · rfl
  · rfl
  · exact hout.port

/-- Settles O9: `exec_answers` gives the state; each of the four ends of `exec_cases` is over and keeps the build and
the outside. -/
theorem everyCommandEndsItsFlight : Obligations.EveryCommandEndsItsFlight := by
  intro i s
  obtain ⟨t, h⟩ := exec_answers i s
  have hend := exec_ends_flight h
  exact ⟨t, h, hend, t.busy_eq_false.mpr hend, exec_keeps_build h, exec_keeps_port h⟩

/-- Settles O11: of the ends of `exec_cases`, SRESET's reset is excluded, a success sets DONE in the STATUS its outputs
left alone, and the other two are the error and the fault. -/
theorem commandOutcomeIsSuccessErrorOrFault : Obligations.CommandOutcomeIsSuccessErrorOrFault := by
  intro i s t hi h
  rcases exec_cases i s with ⟨hreset, _⟩ | ⟨e, hnone, hkey, heq⟩ | ⟨hbuild, heq⟩ | ⟨s', r, hout, heq⟩
  · exact absurd hreset hi
  · cases heq.symm.trans h
    exact .inr (.inl ⟨e, hnone, hkey, rfl⟩)
  · cases heq.symm.trans h
    exact .inr (.inr ⟨hbuild, rfl, rfl⟩)
  · cases heq.symm.trans h
    rw [State.succeed_status, hout.status]
    exact .inl rfl

/-! ### A rejected write beside a command in flight (R107) -/

/-- An outcome with REJ set in its next state. -/
def rejectedOutcome : Host.Outcome State Fault Refusal → Host.Outcome State Fault Refusal
  | .next t => .next t.reject
  | .fault r => .fault r
  | .refused r => .refused r

theorem finishDerive_reject (s : State) (k : List Byte) : finishDerive s.reject k = (finishDerive s k).reject := by
  simp only [finishDerive]
  rfl

/-- A command other than SRESET reads the snapshot, which a rejection leaves alone, and writes other fields than
REJ. -/
theorem exec_reject {i : Instr} (hi : i ≠ .sreset) {s : State} (hb : s.busy = true) :
    exec i s.reject = rejectedOutcome (exec i s) := by
  have hin := s.reject_inputs hb
  cases i with
  | sreset => exact absurd rfl hi
  | hdrParse =>
    simp only [exec, execHdrParse, hin]
    split <;> rfl
  | hdrSerialize =>
    simp only [exec, execHdrSerialize, hin]
    split <;> rfl
  | chHash =>
    simp only [exec, execChHash, hin]
    split <;> rfl
  | pskDerive =>
    simp only [exec, execPskDerive, hin]
    split
    · rfl
    · cases b64decode (pskText s.inputs) with
      | none => rfl
      | some d =>
        simp only [State.reject_build, finishDerive_reject]
        cases pskKey s.build.defaultKey d <;> rfl
  | ctrBuild =>
    simp only [exec, execCtrBuild, hin]
    split <;> rfl
  | ctrApply =>
    simp only [exec, execCtrApply, hin]
    split
    · rfl
    · split <;> rfl
  | ctrApplyTo =>
    simp only [exec, execCtrApplyTo, hin]
    split
    · rfl
    · split
      · rfl
      · split <;> rfl
  | _ => rfl

/-- Settles O22: `exec_reject`. -/
theorem rejectedWriteDoesNotDisturbTheCommand : Obligations.RejectedWriteDoesNotDisturbTheCommand := by
  intro i s t hi hb h
  rw [exec_reject hi hb, h, rejectedOutcome]

/-! ### Which steps have a meaning (R118) -/

theorem completion_answers (s : State) : ∃ t, completion s = .next t := by
  rcases hi : s.inflight with _ | f
  · exact ⟨s, completion_none hi⟩
  · rw [completion_some hi]
    exact exec_answers _ s

theorem hostTransaction_answers (tx : HostTxn) (s : State) : ∃ t, hostTransaction tx s = .next t := by
  cases tx with
  | read a => exact ⟨_, rfl⟩
  | write a v =>
    rcases hostWrite_cases a v s with ⟨_, _, h⟩ | ⟨_, _, h⟩ | ⟨_, _, _, _, h⟩ | ⟨_, _, h⟩ <;> exact ⟨_, h⟩

/-- A step answers a next state unless it is a host transaction while the hard reset input is asserted. -/
theorem step_answers_or_refuses (s : State) :
    (∃ t, step s = .next t ∧ ¬ (s.port.resetIn = true ∧ ∃ tx es, s.port.events = .host tx :: es)) ∨
      step s = .refused .hostTransactionDuringReset ∧ s.port.resetIn = true ∧
        ∃ tx es, s.port.events = .host tx :: es := by
  rcases he : s.port.events with _ | ⟨e, es⟩
  · obtain ⟨t, h⟩ := completion_answers s
    exact .inl ⟨t, (step_nil he).trans h, by simp⟩
  · rw [step_cons he]
    cases e with
    | complete =>
      obtain ⟨t, h⟩ := completion_answers (s.withEvents es)
      exact .inl ⟨t, h, by simp⟩
    | assertReset => exact .inl ⟨_, rfl, by simp⟩
    | releaseReset => exact .inl ⟨_, rfl, by simp⟩
    | host tx =>
      rcases hr : s.port.resetIn with _ | _
      · obtain ⟨t, h⟩ := hostTransaction_answers tx (s.withEvents es)
        refine .inl ⟨t, ?_, by simp⟩
        rw [handle, if_neg (by simp [hr]), h]
      · refine .inr ⟨?_, rfl, tx, es, rfl⟩
        rw [handle, if_pos (by simp [hr])]

/-- Settles O24: `step_answers_or_refuses`, whose two cases exclude each other. -/
theorem stepIsRefusedOnlyDuringHardReset : Obligations.StepIsRefusedOnlyDuringHardReset := by
  intro s
  rcases step_answers_or_refuses s with ⟨t, h, hno⟩ | ⟨h, hrefused⟩
  · refine ⟨fun r => ?_, fun r => by rw [h]; simp⟩
    rw [h]
    exact iff_of_false (fun h => by cases h) fun h => hno h.2
  · refine ⟨fun r => ?_, fun r => by rw [h]; simp⟩
    rw [h]
    constructor
    · intro hr
      cases hr
      exact ⟨rfl, hrefused⟩
    · rintro ⟨rfl, _⟩
      rfl

/-! ### A command in flight until its end (R54, R125) -/

/-- A step that leaves the command in flight: one event is off the list, and of the block at most REJ has changed. -/
structure KeepsFlight (s t : State) : Prop where
  inflight : t.inflight = s.inflight
  regs : t.regs = s.regs
  mem : t.mem = s.mem
  ctx : t.ctx = s.ctx
  build : t.build = s.build
  released : s.port.resetIn = false → t.port.resetIn = false
  shorter : t.port.events.length < s.port.events.length

/-- The turns that end a flight: the completion's, by its event or with no event left, the assertion of the hard reset
and the write of SRESET. -/
def EndsFlight (events : List Event) : Prop :=
  events = [] ∨ ∃ e es, events = e :: es ∧
    (e = .complete ∨ e = .assertReset ∨ e = .host (.write 0 0x0000000F))

theorem completion_ends_flight {s t : State} (hb : s.busy = true) (h : completion s = .next t) : t.inflight = none := by
  rcases completion_cases h with ⟨hidle, _⟩ | ⟨f, _, hexec⟩
  · rw [s.busy_eq_false.mpr hidle] at hb
    cases hb
  · exact exec_ends_flight hexec

/-- Any host write but SRESET is rejected while a command is in flight. -/
theorem hostWrite_while_busy {a : Offset} {v : Word} {s t : State} (hb : s.busy = true)
    (h : hostWrite a v s = .next t) : (a = 0 ∧ v = sresetWord ∧ t.inflight = none) ∨ t = s.reject := by
  by_cases hs : a = 0 ∧ v = sresetWord
  · obtain ⟨rfl, rfl⟩ := hs
    cases h
    exact .inl ⟨rfl, rfl, rfl⟩
  · cases (hostWrite_rejected (.inl hb) hs).symm.trans h
    exact .inr rfl

/-- A step of the busy block ends the flight or keeps it. -/
theorem step_busy_cases {s t : State} (hb : s.busy = true) (h : step s = .next t) :
    KeepsFlight s t ∨ t.inflight = none ∧ EndsFlight s.port.events := by
  rcases step_cases h with
    ⟨he, hc⟩ | ⟨es, ⟨he, hc⟩ | ⟨_, he, _, rfl⟩ | ⟨a, v, he, _, hw⟩ | ⟨he, rfl⟩ | ⟨he, rfl⟩⟩
  · exact .inr ⟨completion_ends_flight hb hc, .inl he⟩
  · exact .inr ⟨completion_ends_flight (s := s.withEvents es) hb hc, .inr ⟨_, _, he, .inl rfl⟩⟩
  · exact .inl ⟨rfl, rfl, rfl, rfl, rfl, id, by simp [he]⟩
  · rcases hostWrite_while_busy (s := s.withEvents es) hb hw with ⟨rfl, rfl, hend⟩ | rfl
    · exact .inr ⟨hend, .inr ⟨_, _, he, .inr (.inr rfl)⟩⟩
    · exact .inl ⟨rfl, rfl, rfl, rfl, rfl, id, by simp [he]⟩
  · exact .inr ⟨rfl, .inr ⟨_, _, he, .inr (.inl rfl)⟩⟩
  · exact .inl ⟨rfl, rfl, rfl, rfl, rfl, fun _ => rfl, by simp [he]⟩

/-- With the reset input released every step has a meaning. -/
theorem step_answers_released {s : State} (hr : s.port.resetIn = false) : ∃ t, step s = .next t := by
  rcases step_answers_or_refuses s with ⟨t, h, _⟩ | ⟨_, hasserted, _⟩
  · exact ⟨t, h⟩
  · rw [hr] at hasserted
    cases hasserted

/-- A flight is over after at most one step more than `n`, a bound on the events waiting. -/
theorem flight_ends_within (n : Nat) {s : State} (hn : s.port.events.length ≤ n) (hb : s.busy = true)
    (hr : s.port.resetIn = false) :
    ∃ k t, k ≤ n + 1 ∧ Sys2Proof.core.run k s = .next t ∧ State.inflight t = none := by
  induction n generalizing s with
  | zero =>
    obtain ⟨t, h⟩ := step_answers_released hr
    rcases step_busy_cases hb h with hkeeps | ⟨hend, _⟩
    · have := hkeeps.shorter
      omega
    · exact ⟨1, t, le_rfl, (run_succ 0 h).trans (run_zero t), hend⟩
  | succ n ih =>
    obtain ⟨t, h⟩ := step_answers_released hr
    rcases step_busy_cases hb h with hkeeps | ⟨hend, _⟩
    · have hn' : t.port.events.length ≤ n := by
        have := hkeeps.shorter
        omega
      have hb' : t.busy = true := by rwa [State.busy, hkeeps.inflight]
      obtain ⟨k, u, hk, hrun, hend⟩ := ih hn' hb' (hkeeps.released hr)
      exact ⟨k + 1, u, by omega, (run_succ k h).trans hrun, hend⟩
    · exact ⟨1, t, by omega, (run_succ 0 h).trans (run_zero t), hend⟩

/-- Settles O23: `flight_ends_within` the events waiting outside. -/
theorem commandInFlightEventuallyEnds : Obligations.CommandInFlightEventuallyEnds :=
  fun _ hb hr => flight_ends_within _ le_rfl hb hr

/-- While a command is kept in flight, every offset but STATUS reads as before. -/
theorem readWindow_of_keepsFlight {s t : State} (h : KeepsFlight s t) {a : Offset} (ha : a ≠ 0x004) :
    readWindow t a = readWindow s a := by
  have hstatus : targetOf a ≠ .status := fun hst => ha <| by
    have h004 : targetOf 0x004 = .status := rfl
    exact targetOf_inj (hst.trans h004.symm) (by rw [hst]; decide)
  simp only [readWindow]
  cases ht : targetOf a with
  | status => exact absurd ht hstatus
  | config => simp only [readTarget, h.build]
  | buffer n => simp only [readTarget, h.mem]
  | _ => simp only [readTarget, h.regs]

/-- Settles O28: a step of the busy block is one of `step_busy_cases`; the completion is `exec` of the word in flight,
which keeps the outside, so that a read comes next. -/
theorem outputsAppearOnlyAtTheCompletion : Obligations.OutputsAppearOnlyAtTheCompletion := by
  refine ⟨fun s t hb h => ?_, fun s f a es hf hr he => ?_⟩
  · refine (step_busy_cases hb h).imp (fun hkeeps => ?_) id
    exact ⟨hkeeps.inflight, hkeeps.regs, hkeeps.mem, hkeeps.ctx, fun a => readWindow_of_keepsFlight hkeeps⟩
  · obtain ⟨t, ht⟩ := exec_answers (decodeWord f.word) (s.withEvents (.host (.read a) :: es))
    have hport := exec_keeps_port ht
    have hstep : step s = .next t := by
      rw [step_complete he, completion_some (s := s.withEvents (.host (.read a) :: es)) hf, ht]
    have hread : step t = .next ((t.withEvents es).respond (readWindow (t.withEvents es) a)) :=
      step_read (by rw [hport]; exact hr) (by rw [hport]; rfl)
    refine ⟨t, _, hstep, ht, exec_ends_flight ht, hread, ?_⟩
    rw [readWindow_withEvents, State.respond_port, State.withEvents_port, hport]
    rfl

/-! ### Both resets (R116) -/

/-- A state whose block is at its reset values is what a reset of it gives. -/
theorem eq_resetBlock {t : State} (hsnap : t.snapshot = Snapshot.reset) (hidle : t.inflight = none) :
    t = t.resetBlock := by
  obtain ⟨hstatus, hregs, hmem, hctx⟩ := Snapshot.mk.inj hsnap
  cases t
  cases hstatus
  cases hregs
  cases hmem
  cases hctx
  cases hidle
  rfl

theorem readWindow_at_reset {t : State} (hsnap : t.snapshot = Snapshot.reset) (hidle : t.inflight = none) (a : Offset) :
    readWindow t a = if a = 0x008 then configWord t.build else 0 := by
  rw [eq_resetBlock hsnap hidle]
  split
  · rename_i ha
    rw [ha, readWindow_config]
  · rename_i ha
    exact readWindow_resetBlock t ha

theorem zero_of_mem_reset_key : ∀ b ∈ Snapshot.reset.ctx.key.toList, b = 0 := by decide

theorem zero_of_mem_reset_n0 : ∀ b ∈ Snapshot.reset.ctx.n0.toList, b = 0 := by decide

/-- Settles O25: SRESET, the assertion of the hard reset and the reset state all leave the block's snapshot at its reset
values and nothing in flight, which is all that the claim reads beside the build. -/
theorem bothResetsGiveTheResetValues : Obligations.BothResetsGiveTheResetValues := by
  intro s AtReset
  have hreset {t : State} (hsnap : t.snapshot = Snapshot.reset) (hidle : t.inflight = none)
      (hbuild : t.build = s.build) : AtReset t := by
    have hmem : t.mem = [] := congrArg Snapshot.mem hsnap
    have hctx : t.ctx = Snapshot.reset.ctx := congrArg Snapshot.ctx hsnap
    refine ⟨fun a => ?_, fun k => by rw [hmem]; rfl, by rw [hctx]; rfl, by rw [hctx]; rfl, ?_, ?_, hidle, hbuild⟩
    · rw [readWindow_at_reset hsnap hidle, hbuild, readWindow_config]
    · rw [hctx]
      exact zero_of_mem_reset_key
    · rw [hctx]
      exact zero_of_mem_reset_n0
  refine ⟨⟨s.resetBlock, rfl, hreset rfl rfl rfl⟩, fun es he => ?_, ?_⟩
  · exact ⟨(s.withEvents es).resetBlock.setResetIn true, step_cons he, hreset rfl rfl rfl⟩
  · rintro rfl
    exact hreset rfl rfl rfl

end Sys2Proof.Machine
end

section
/-! SUPPORT. The family of the invariant: it holds at reset, every step keeps it, one lemma an operation (R21, R36, R37,
R40, R103, R108), and with it the fault state is left only by a reset (R108). -/

namespace Sys2Proof.Machine

/-! ### The resets and the outside (R116, R118) -/

/-- The reset values meet the invariant, whatever the build and the outside are. -/
theorem inv_of_snapshot_reset {s : State} (hsnap : s.snapshot = Snapshot.reset) (hidle : s.inflight = none) :
    s.Inv := by
  have hstatus : s.status = Snapshot.reset.status := congrArg Snapshot.status hsnap
  have hmem : s.mem = [] := congrArg Snapshot.mem hsnap
  have hctx : s.ctx = Snapshot.reset.ctx := congrArg Snapshot.ctx hsnap
  exact {
    memWf := hmem ▸ wf_nil
    memInBuffers := fun c hc => by rw [hmem] at hc; cases hc
    errcodeNone := by rw [hstatus]; decide
    doneNotErr := by rw [hstatus]; decide
    faultCode := by rw [hstatus]; decide
    faultQuiet := by rw [hstatus]; exact fun h => by cases h
    ctxKlen := by rw [hctx]; exact fun h => by cases h
    flight := fun f hf => by rw [hidle] at hf; cases hf
    heldInReset := fun _ => ⟨hsnap, hidle⟩ }

/-- Settles O26: the reset state is its own snapshot, with nothing in flight. -/
theorem invariantHoldsAtReset : Obligations.InvariantHoldsAtReset := inv_of_snapshot_reset rfl rfl

/-- The invariant speaks of the outside through the level of the hard reset input alone. -/
theorem inv_withEvents {s : State} (h : s.Inv) (es : List Event) : (s.withEvents es).Inv :=
  ⟨h.memWf, h.memInBuffers, h.errcodeNone, h.doneNotErr, h.faultCode, h.faultQuiet, h.ctxKlen, h.flight,
    h.heldInReset⟩

@[inherit_doc inv_withEvents]
theorem inv_respond {s : State} (h : s.Inv) (v : Word) : (s.respond v).Inv :=
  ⟨h.memWf, h.memInBuffers, h.errcodeNone, h.doneNotErr, h.faultCode, h.faultQuiet, h.ctxKlen, h.flight,
    h.heldInReset⟩

/-- Releasing the hard reset input lifts a demand. -/
theorem inv_releaseReset {s : State} (h : s.Inv) : (s.setResetIn false).Inv :=
  ⟨h.memWf, h.memInBuffers, h.errcodeNone, h.doneNotErr, h.faultCode, h.faultQuiet, h.ctxKlen, h.flight,
    fun hr => by cases hr⟩

/-! ### STATUS on its own (R21, R103) -/

/-- The part of the invariant that speaks of STATUS alone. -/
structure StatusInv (st : Status) : Prop where
  errcodeNone : st.errcode = .none ↔ st.err = false
  doneNotErr : st.done = true → st.err = false
  faultCode : st.fault = true ↔ st.errcode = .keyContract

theorem statusInv_of_inv {s : State} (h : s.Inv) : StatusInv s.status :=
  ⟨h.errcodeNone, h.doneNotErr, h.faultCode⟩

/-- ERR and ERRCODE are cleared together, and not in the fault state. -/
theorem statusInv_clearStatus {st : Status} (h : StatusInv st) (v : Word) : StatusInv (clearStatus st v) := by
  have hdone (hd : (clearStatus st v).done = true) : st.done = true := (Bool.and_eq_true_iff.mp hd).1
  have hfault : (clearStatus st v).fault = st.fault := rfl
  by_cases hclears : v.getLsbD 2 = true ∧ st.fault = false
  · obtain ⟨herr, hcode⟩ := clearStatus_clears_err hclears.1 hclears.2
    refine ⟨iff_of_true hcode herr, fun _ => herr, iff_of_false ?_ ?_⟩
    · simp [hfault, hclears.2]
    · simp [hcode]
  · have hkeeps : v.getLsbD 2 = false ∨ st.fault = true := by
      rwa [not_and_or, Bool.not_eq_true, Bool.not_eq_false] at hclears
    obtain ⟨herr, hcode⟩ := clearStatus_keeps_err hkeeps
    refine ⟨?_, fun hd => ?_, ?_⟩
    · rw [herr, hcode]
      exact h.errcodeNone
    · rw [herr]
      exact h.doneNotErr (hdone hd)
    · rw [hfault, hcode]
      exact h.faultCode

/-! ### Host writes (R21, R40, R41) -/

/-- No host write to the idle block sets or clears FAULT. -/
theorem writeIdle_fault (s : State) (v : Word) (t : Target) : (writeIdle s v t).status.fault = s.status.fault := by
  rw [writeIdle_status]
  split <;> rfl

section Released

variable {s : State} (h : s.Inv) (hr : s.port.resetIn = false)
include h hr

theorem inv_reject : s.reject.Inv where
  memWf := h.memWf
  memInBuffers := h.memInBuffers
  errcodeNone := h.errcodeNone
  doneNotErr := h.doneNotErr
  faultCode := h.faultCode
  faultQuiet := h.faultQuiet
  ctxKlen := h.ctxKlen
  flight := h.flight
  heldInReset hasserted := absurd hasserted (by simp [hr])

/-- A start clears DONE, ERR and ERRCODE and takes the snapshot of the live state. -/
theorem inv_start {w : Word} (hfault : s.status.fault = false) (hw : w ≠ sresetWord) : (s.start w).Inv where
  memWf := h.memWf
  memInBuffers := h.memInBuffers
  errcodeNone := iff_of_true rfl rfl
  doneNotErr _ := rfl
  faultCode := iff_of_false (by simp [hfault]) (by simp)
  faultQuiet hset := absurd hset (by simp [hfault])
  ctxKlen := h.ctxKlen
  flight f hf := by
    cases hf
    exact ⟨rfl, rfl, hw, rfl, rfl, rfl⟩
  heldInReset hasserted := absurd hasserted (by simp [hr])

theorem inv_writeIdle (hb : s.busy = false) (v : Word) (a : Offset) : (writeIdle s v (targetOf a)).Inv := by
  have hstatus : StatusInv (writeIdle s v (targetOf a)).status := by
    rw [writeIdle_status]
    split
    · exact statusInv_clearStatus (statusInv_of_inv h) v
    · exact statusInv_of_inv h
  exact {
    memWf := writeIdle_wf h.memWf v _
    memInBuffers := writeIdle_inBuffers h.memInBuffers v a
    errcodeNone := hstatus.errcodeNone
    doneNotErr := hstatus.doneNotErr
    faultCode := hstatus.faultCode
    faultQuiet := by
      rw [writeIdle_fault, writeIdle_ctx, writeIdle_inflight]
      exact h.faultQuiet
    ctxKlen := by
      rw [writeIdle_ctx]
      exact h.ctxKlen
    flight := fun f hf => by
      rw [writeIdle_inflight, s.busy_eq_false.mp hb] at hf
      cases hf
    heldInReset := fun hasserted => absurd hasserted (by simp [hr]) }

theorem inv_hostWrite {a : Offset} {v : Word} {t : State} (hw : hostWrite a v s = .next t) : t.Inv := by
  rcases hostWrite_cases a v s with ⟨_, _, heq⟩ | ⟨_, _, heq⟩ | ⟨_, hv, _, hfault, heq⟩ | ⟨_, hb, heq⟩ <;>
    cases heq.symm.trans hw
  · exact inv_of_snapshot_reset rfl rfl
  · exact inv_reject h hr
  · exact inv_start h hr hfault hv
  · exact inv_writeIdle h hr hb v a

end Released

/-! ### Completions (R40, R103, R108) -/

section InFlight

variable {s : State} (h : s.Inv) {f : InFlight} (hf : s.inflight = some f)
include h hf

/-- No command is in flight in the fault state. -/
theorem fault_eq_false_of_flight : s.status.fault = false := by
  by_contra hfault
  obtain ⟨_, hidle⟩ := h.faultQuiet (by simpa using hfault)
  rw [hf] at hidle
  cases hidle

/-- No command is in flight while the hard reset input is asserted. -/
theorem resetIn_eq_false_of_flight : s.port.resetIn = false := by
  by_contra hasserted
  obtain ⟨_, hidle⟩ := h.heldInReset (by simpa using hasserted)
  rw [hf] at hidle
  cases hidle

theorem inv_failWith {e : ErrCode} (hnone : e ≠ .none) (hkey : e ≠ .keyContract) : (s.failWith e).Inv := by
  have hfault := fault_eq_false_of_flight h hf
  obtain ⟨hdone, _⟩ := h.flight f hf
  exact {
    memWf := h.memWf
    memInBuffers := h.memInBuffers
    errcodeNone := iff_of_false hnone (by simp)
    doneNotErr := fun hset => absurd hset (by simp [hdone])
    faultCode := iff_of_false (by simp [hfault]) hkey
    faultQuiet := fun hset => absurd hset (by simp [hfault])
    ctxKlen := h.ctxKlen
    flight := fun _ hnext => by cases hnext
    heldInReset := fun hasserted => absurd hasserted (by simp [resetIn_eq_false_of_flight h hf]) }

theorem inv_faultWith : (s.faultWith .keyContract).Inv := by
  obtain ⟨hdone, _⟩ := h.flight f hf
  exact {
    memWf := h.memWf
    memInBuffers := h.memInBuffers
    errcodeNone := iff_of_false (by simp) (by simp)
    doneNotErr := fun hset => absurd hset (by simp [hdone])
    faultCode := iff_of_true rfl rfl
    faultQuiet := fun _ => ⟨rfl, rfl⟩
    ctxKlen := fun hvalid => by cases hvalid
    flight := fun _ hnext => by cases hnext
    heldInReset := fun hasserted => absurd hasserted (by simp [resetIn_eq_false_of_flight h hf]) }

/-- A success sets DONE beside ERR, which is 0 in flight; its outputs keep the buffers canonical and load no context
with another key length. -/
theorem inv_succeed {s' : State} (hout : OutputsOf s s') (r : Word) : (s'.succeed r).Inv := by
  have hfault := fault_eq_false_of_flight h hf
  obtain ⟨_, herr, _⟩ := h.flight f hf
  exact {
    memWf := hout.wf h.memWf
    memInBuffers := hout.inBuffers h.memInBuffers
    errcodeNone := by
      rw [State.succeed_status, hout.status]
      exact h.errcodeNone
    doneNotErr := fun _ => by rw [State.succeed_status, hout.status, herr]
    faultCode := by
      rw [State.succeed_status, hout.status]
      exact h.faultCode
    faultQuiet := fun hset => absurd hset (by simp [hout.status, hfault])
    ctxKlen := fun hvalid => by
      rw [State.succeed_ctx] at hvalid ⊢
      rcases hout.ctx with hctx | hinvalid | hklen
      · rw [hctx] at hvalid ⊢
        exact h.ctxKlen hvalid
      · rw [hinvalid] at hvalid
        cases hvalid
      · exact hklen
    flight := fun _ hnext => by cases hnext
    heldInReset := fun hasserted => absurd hasserted (by simp [hout.port, resetIn_eq_false_of_flight h hf]) }

theorem inv_exec {i : Instr} {t : State} (hexec : exec i s = .next t) : t.Inv := by
  rcases exec_cases i s with ⟨_, heq⟩ | ⟨e, hnone, hkey, heq⟩ | ⟨_, heq⟩ | ⟨s', r, hout, heq⟩ <;>
    cases heq.symm.trans hexec
  · exact inv_of_snapshot_reset rfl rfl
  · exact inv_failWith h hf hnone hkey
  · exact inv_faultWith h hf
  · exact inv_succeed h hf hout r

end InFlight

theorem inv_completion {s t : State} (h : s.Inv) (hc : completion s = .next t) : t.Inv := by
  rcases completion_cases hc with ⟨_, rfl⟩ | ⟨f, hf, hexec⟩
  · exact h
  · exact inv_exec h hf hexec

/-! ### Every step (R55) -/

/-- Settles O27: one lemma for each kind of step of `step_cases`. -/
theorem stepKeepsInvariant : Obligations.StepKeepsInvariant := by
  intro s t h hstep
  rcases step_cases hstep with
    ⟨_, hc⟩ | ⟨es, ⟨_, hc⟩ | ⟨a, _, _, rfl⟩ | ⟨a, v, _, hr, hw⟩ | ⟨_, rfl⟩ | ⟨_, rfl⟩⟩
  · exact inv_completion h hc
  · exact inv_completion (inv_withEvents h es) hc
  · exact inv_respond (inv_withEvents h es) _
  · exact inv_hostWrite (inv_withEvents h es) hr hw
  · exact inv_of_snapshot_reset rfl rfl
  · exact inv_releaseReset (inv_withEvents h es)

/-! ### The fault state (R108) -/

/-- In the fault state the block is idle, so a completion changes nothing. -/
theorem completion_of_fault {s t : State} (h : s.Inv) (hfault : s.status.fault = true) (hc : completion s = .next t) :
    t = s := by
  obtain ⟨_, hidle⟩ := h.faultQuiet hfault
  rw [completion_none hidle] at hc
  cases hc
  rfl

/-- Of the host's writes SRESET alone leaves the fault state. -/
theorem hostWrite_of_fault {a : Offset} {v : Word} {s t : State} (hfault : s.status.fault = true)
    (hw : hostWrite a v s = .next t) : t.status.fault = true ∨ (a = 0 ∧ v = sresetWord) := by
  rcases hostWrite_cases a v s with ⟨ha, hv, _⟩ | ⟨_, _, heq⟩ | ⟨_, _, _, hclear, _⟩ | ⟨_, _, heq⟩
  · exact .inr ⟨ha, hv⟩
  · cases heq.symm.trans hw
    exact .inl hfault
  · rw [hfault] at hclear
    cases hclear
  · cases heq.symm.trans hw
    exact .inl ((writeIdle_fault s v (targetOf a)).trans hfault)

/-- Settles O21: of the steps of `step_cases` only the write of SRESET and the assertion of the hard reset leave the
fault state. -/
theorem faultStateIsLeftOnlyByReset : Obligations.FaultStateIsLeftOnlyByReset := by
  intro s t h hfault hstep
  rcases step_cases hstep with
    ⟨_, hc⟩ | ⟨es, ⟨_, hc⟩ | ⟨_, _, _, rfl⟩ | ⟨a, v, he, _, hw⟩ | ⟨he, _⟩ | ⟨_, rfl⟩⟩
  · rw [completion_of_fault h hfault hc]
    exact .inl hfault
  · rw [completion_of_fault (inv_withEvents h es) hfault hc]
    exact .inl hfault
  · exact .inl hfault
  · rcases hostWrite_of_fault (s := s.withEvents es) hfault hw with hkept | ⟨rfl, rfl⟩
    · exact .inl hkept
    · exact .inr (.inl ⟨es, he⟩)
  · exact .inr (.inr ⟨es, he⟩)
  · exact .inl hfault

end Sys2Proof.Machine
end
